-- ==== Sys2Proof/Word.lean ====
section
/-! DEFINITION. The word types of the block: levels, the two lines, bytes, command and response words
(spec/00_scope.md R6 to R9, spec/30_encoding.md R70). -/

namespace Sys2Proof

/-- "8-bit unsigned value" (R6, R12). -/
abbrev Byte := BitVec 8

/-- A 24-bit command word `w[23:0]` (R70). -/
abbrev CommandWord := BitVec 24

/-- A 24-bit response word `r[23:0]` (R70, R75). -/
abbrev ResponseWord := BitVec 24

/-- A LineLevel, "boolean {low, high}": `false` is low, written 0, and `true` is high, written 1 (R8). A data bit
and an AckBit are levels too (R8: AckBit 0 = acknowledged). -/
abbrev Level := Bool

/-- The two lines: the clock `SCL` and the data line `SDA` (R9). -/
inductive Line where
  | scl
  | sda
  deriving DecidableEq, Repr

end Sys2Proof
end

