-- ==== Sys2Proof/Config.lean ====
section
/-! DEFINITION. What the platform fixes and the free values: the parameters `HALF` and `PIN[L]` (spec/00_scope.md R6,
spec/10_state.md R29), the events of the trace with the collaborator call each stands for (R11, R172, R174), and the
environment's free answer to a pin read (spec/20_memory.md R55). -/

namespace Sys2Proof

/-- An event of the trace: one call on a collaborator (R11). -/
inductive Event where
  /-- `Sleep(HALF)`. -/
  | sleep
  /-- `CfgOut(L)`. -/
  | cfgOut (line : Line)
  /-- `CfgIn(L)`. -/
  | cfgIn (line : Line)
  /-- `Wr(L, v)`. -/
  | wr (line : Line) (level : Level)
  /-- `Rd(L) = v`, with the level the call returned. -/
  | rd (line : Line) (level : Level)
  /-- `Rel(L)`. -/
  | rel (line : Line)
  deriving DecidableEq, Repr

namespace Config

/-- Free value: the numerator of `HALF`, less one (log 10). -/
opaque halfNumerator : Nat

/-- Free value: the denominator of `HALF`, less one (log 10). -/
opaque halfDenominator : Nat

/-- `HALF`, half of SignalChangeTime, in seconds: OPEN, any duration above 0 (R6, U10). -/
def half : Rat := ((halfNumerator : Rat) + 1) / ((halfDenominator : Rat) + 1)

/-- SignalChangeTime, `T = 2*HALF` (R6). -/
def signalChangeTime : Rat := 2 * half

/-- Free value: the handle of the clock pin, OPEN (R6, U9). -/
opaque pinScl : Nat

/-- Free value: the place of the data pin's handle among the handles that are not the clock's (log 10). -/
opaque pinSdaIndex : Nat

/-- `PIN[L]`: two distinct handles, opaque except for being distinct (R6, R51, U9). -/
def pin : Line → Nat
  | .scl => pinScl
  | .sda => if pinSdaIndex < pinScl then pinSdaIndex else pinSdaIndex + 1

/-- FREE VALUE: the level the environment answers to a pin read that the input list `State.env` does not fix.
Its arguments are the number of reads answered before and the whole trace up to the read (R55: "a free input of the
step", "The answer may depend on everything the environment has seen so far"). It has no body: nothing is known of
any value of it (log 3). -/
opaque envLevel : Nat → List Event → Level

end Config

/-- A call on one of the two collaborators: the five GPIO capabilities (R172) and the delay (R174). -/
inductive Call where
  | sleep (durationSeconds : Rat)
  | configureOutput (pin : Nat)
  | configureInput (pin : Nat) (pullUp : Bool)
  | writeLevel (pin : Nat) (level : Level)
  | readLevel (pin : Nat) (answer : Level)
  | release (pin : Nat)
  deriving DecidableEq, Repr

/-- The call an event stands for (the table of R11): every sleep is `HALF` long, every input is configured with its
pull-up, and no pin but the two of the block is named (R172, R174). -/
def Event.call : Event → Call
  | .sleep => .sleep Config.half
  | .cfgOut l => .configureOutput (Config.pin l)
  | .cfgIn l => .configureInput (Config.pin l) true
  | .wr l v => .writeLevel (Config.pin l) v
  | .rd l v => .readLevel (Config.pin l) v
  | .rel l => .release (Config.pin l)

end Sys2Proof
end

