-- ==== Sys2Proof/Syntax.lean ====
section
/-! DEFINITION. The sixteen commands of the block, one constructor per row of spec/opcode_table.json
(spec/30_encoding.md R73), with the operands of their format (R71, R72). -/

namespace Sys2Proof

/-- A command with its operands. `dev` is written as the source's `u8[7 bits]` (R2): a byte whose top bit must be 0,
which `Instr.wellFormed` checks (log 9). -/
inductive Instr where
  /-- LNOUT line (R96). -/
  | lnout (line : Line)
  /-- LNIN line (R97). -/
  | lnin (line : Line)
  /-- LNWR line, level (R98). -/
  | lnwr (line : Line) (level : Level)
  /-- LNRD line (R99). -/
  | lnrd (line : Line)
  /-- LNREL line (R100). -/
  | lnrel (line : Line)
  /-- START (R102). -/
  | start
  /-- STOP (R103). -/
  | stop
  /-- WBIT bit (R104). -/
  | wbit (bit : Level)
  /-- RBIT (R105). -/
  | rbit
  /-- SACK (R106). -/
  | sack
  /-- CACK (R107). -/
  | cack
  /-- SENDB byte (R121). -/
  | sendb (byte : Byte)
  /-- RECVB (R122). -/
  | recvb
  /-- RDREG dev, reg (R130). -/
  | rdreg (dev : Byte) (reg : Byte)
  /-- DEC16 low, high (R140). -/
  | dec16 (low : Byte) (high : Byte)
  /-- CLEANUP (R150). -/
  | cleanup
  deriving DecidableEq, Repr

end Sys2Proof
end

