-- ==== Sys2Proof/WellFormed.lean ====
section
/-! DEFINITION. Which commands can be encoded: every operand fits its field (spec/30_encoding.md R71, R72). -/

namespace Sys2Proof

/-- The one operand check of the formats: a device address is a 7-bit value, "a device address above 127 cannot be
expressed" (R72). Every other operand's type is exactly as wide as its field. -/
def Instr.wellFormed : Instr → Bool
  | .lnout _ => true
  | .lnin _ => true
  | .lnwr _ _ => true
  | .lnrd _ => true
  | .lnrel _ => true
  | .start => true
  | .stop => true
  | .wbit _ => true
  | .rbit => true
  | .sack => true
  | .cack => true
  | .sendb _ => true
  | .recvb => true
  | .rdreg dev _ => !dev.msb
  | .dec16 _ _ => true
  | .cleanup => true

end Sys2Proof
end

