-- ==== Sys2Proof/Decode.lean ====
section
/-! DEFINITION. Decoding and encoding of command words (spec/30_encoding.md R70 to R73, R76, R77, R81). -/

namespace Sys2Proof

/-- `op`, bits 23:16 of a command word (R70). -/
def opField (w : CommandWord) : BitVec 8 := w.extractLsb' 16 8

/-- `arg`, bits 15:0 of a command word (R70). -/
def argField (w : CommandWord) : BitVec 16 := w.extractLsb' 0 16

/-- The `line` operand: 0 selects SCL, 1 selects SDA (R72). -/
def lineOfBit (b : Bool) : Line := if b then .sda else .scl

/-- The bit that selects a line (R72). -/
def Line.bit : Line → Bool
  | .scl => false
  | .sda => true

/-- A row of the opcode map: mnemonic, opcode, match and mask (R73). -/
structure OpcodeRow where
  mnemonic : String
  op : BitVec 8
  pattern : CommandWord
  mask : CommandWord
  deriving DecidableEq, Repr

/-- The row of R73 a command belongs to; it does not depend on the operands. -/
def Instr.row : Instr → OpcodeRow
  | .lnout _ => ⟨"LNOUT", 0x01, 0x010000, 0xFFFFFE⟩
  | .lnin _ => ⟨"LNIN", 0x02, 0x020000, 0xFFFFFE⟩
  | .lnwr _ _ => ⟨"LNWR", 0x03, 0x030000, 0xFFFEFE⟩
  | .lnrd _ => ⟨"LNRD", 0x04, 0x040000, 0xFFFFFE⟩
  | .lnrel _ => ⟨"LNREL", 0x05, 0x050000, 0xFFFFFE⟩
  | .start => ⟨"START", 0x06, 0x060000, 0xFFFFFF⟩
  | .stop => ⟨"STOP", 0x07, 0x070000, 0xFFFFFF⟩
  | .wbit _ => ⟨"WBIT", 0x08, 0x080000, 0xFFFFFE⟩
  | .rbit => ⟨"RBIT", 0x09, 0x090000, 0xFFFFFF⟩
  | .sack => ⟨"SACK", 0x0A, 0x0A0000, 0xFFFFFF⟩
  | .cack => ⟨"CACK", 0x0B, 0x0B0000, 0xFFFFFF⟩
  | .sendb _ => ⟨"SENDB", 0x0C, 0x0C0000, 0xFFFF00⟩
  | .recvb => ⟨"RECVB", 0x0D, 0x0D0000, 0xFFFFFF⟩
  | .rdreg _ _ => ⟨"RDREG", 0x0E, 0x0E0000, 0xFF8000⟩
  | .dec16 _ _ => ⟨"DEC16", 0x0F, 0x0F0000, 0xFF0000⟩
  | .cleanup => ⟨"CLEANUP", 0x10, 0x100000, 0xFFFFFF⟩

/-- Why a word is illegal (R76); both raise `IllegalCommand`. -/
inductive IllegalWord where
  /-- The opcode is 0x00 or 0x11 to 0xFF. -/
  | reservedOpcode (op : BitVec 8)
  /-- A reserved operand bit is 1. -/
  | reservedOperandBit (op : BitVec 8)
  deriving DecidableEq, Repr

/-- The operands of each opcode's format, taken from `arg` (R71); none for a reserved opcode. -/
def commandOfFields (op : BitVec 8) (arg : BitVec 16) : Option Instr :=
  match op.toNat with
  | 0x01 => some (.lnout (lineOfBit (arg.getLsbD 0)))
  | 0x02 => some (.lnin (lineOfBit (arg.getLsbD 0)))
  | 0x03 => some (.lnwr (lineOfBit (arg.getLsbD 0)) (arg.getLsbD 8))
  | 0x04 => some (.lnrd (lineOfBit (arg.getLsbD 0)))
  | 0x05 => some (.lnrel (lineOfBit (arg.getLsbD 0)))
  | 0x06 => some .start
  | 0x07 => some .stop
  | 0x08 => some (.wbit (arg.getLsbD 0))
  | 0x09 => some .rbit
  | 0x0A => some .sack
  | 0x0B => some .cack
  | 0x0C => some (.sendb (arg.extractLsb' 0 8))
  | 0x0D => some .recvb
  | 0x0E => some (.rdreg ((arg.extractLsb' 8 7).setWidth 8) (arg.extractLsb' 0 8))
  | 0x0F => some (.dec16 (arg.extractLsb' 0 8) (arg.extractLsb' 8 8))
  | 0x10 => some .cleanup
  | _ => none

/-- The decoding procedure of R81, total on the 2^24 words (R77): opcode, then the row's mask, then the operands. -/
def decode (w : CommandWord) : Except IllegalWord Instr :=
  match commandOfFields (opField w) (argField w) with
  | none => .error (.reservedOpcode (opField w))
  | some i =>
    if w &&& i.row.mask = i.row.pattern then .ok i else .error (.reservedOperandBit (opField w))

/-- The operand field `arg` of a command, reserved bits 0 (R71). -/
def Instr.operandField : Instr → BitVec 16
  | .lnout line => (BitVec.ofBool line.bit).setWidth 16
  | .lnin line => (BitVec.ofBool line.bit).setWidth 16
  | .lnwr line level => ((BitVec.ofBool level).setWidth 16 <<< 8) ||| (BitVec.ofBool line.bit).setWidth 16
  | .lnrd line => (BitVec.ofBool line.bit).setWidth 16
  | .lnrel line => (BitVec.ofBool line.bit).setWidth 16
  | .start => 0
  | .stop => 0
  | .wbit bit => (BitVec.ofBool bit).setWidth 16
  | .rbit => 0
  | .sack => 0
  | .cack => 0
  | .sendb byte => byte.setWidth 16
  | .recvb => 0
  | .rdreg dev reg => (dev.setWidth 16 <<< 8) ||| reg.setWidth 16
  | .dec16 low high => (high.setWidth 16 <<< 8) ||| low.setWidth 16
  | .cleanup => 0

/-- The opcode of a command (R73). -/
def Instr.opcode (i : Instr) : BitVec 8 := i.row.op

/-- The command word of a well-formed command: `{op, arg}` (R70). -/
def encode (i : Instr) : CommandWord := (i.opcode.setWidth 24 <<< 16) ||| i.operandField.setWidth 24

/-- The opcode map of R73, one row per command, in the table's order. -/
def opcodeMap : List OpcodeRow :=
  [Instr.row (.lnout .scl), Instr.row (.lnin .scl), Instr.row (.lnwr .scl false), Instr.row (.lnrd .scl),
   Instr.row (.lnrel .scl), Instr.row .start, Instr.row .stop, Instr.row (.wbit false)] ++
  [Instr.row .rbit, Instr.row .sack, Instr.row .cack, Instr.row (.sendb 0), Instr.row .recvb,
   Instr.row (.rdreg 0 0), Instr.row (.dec16 0 0), Instr.row .cleanup]

/-- The host's reading of a table row: the `nbits` low bits of `w`, every bit above them 0, given to the decoder as
the block's one 24-bit word. -/
def decodeTableWord (nbits w : Nat) : Option Instr :=
  (decode (BitVec.ofNat 24 (w % 2 ^ nbits))).toOption

end Sys2Proof
end

