-- ==== Sys2Proof/Machine/State.lean ====
section
/-! DEFINITION. The state of the block and of its interface, plain data (spec/10_state.md R21 to R27, R31, R33). -/

namespace Sys2Proof.Machine

/-- The direction of a line (R21). -/
inductive Dir where
  /-- `Out`: configured as output, the block drives the pin. -/
  | out
  /-- `In`: configured as input with pull-up. -/
  | inp
  /-- `Released`: the pin was given back by cleanup. -/
  | released
  deriving DecidableEq, Repr

/-- A line cell: direction and output latch (R21, R22). -/
structure LineCell where
  dir : Dir
  latch : Level
  deriving DecidableEq, Repr

/-- The fault status register `FSR` (R25); its packed form is `Fsr.pack`. -/
structure Fsr where
  fault : Bool
  fcode : BitVec 4
  fline : Line
  deriving DecidableEq, Repr

/-- The fields of `SEQ = Busy(cmd, upc, acc, nk)` (R26), with the level an `RD` leaves to be returned
(R27 "the value to return"; log 4). -/
structure Progress where
  cmd : CommandWord
  upc : BitVec 8
  acc : Byte
  nk : BitVec 3
  ret : Level
  deriving DecidableEq, Repr

/-- The sequencer state `SEQ` (R26). -/
inductive Seq where
  | idle
  | busy (p : Progress)
  deriving DecidableEq, Repr

/-- A move of the host (R20, R78, R175, R190; log 2 and 6). -/
inductive HostMove where
  /-- Issue a command word; the block performs it whole in one step (R28). -/
  | issue (w : CommandWord)
  /-- Issue a command word; the block accepts it in one step and performs one μop in each later step (R27). -/
  | issueStepped (w : CommandWord)
  /-- Let one step pass. -/
  | wait
  /-- Assert the reset input (R190). -/
  | reset
  deriving DecidableEq, Repr

/-- The machine: the block's own state (`scl`, `sda`, `fsr`, `seq`; R21 to R26) and the inputs and outputs of the
step relation, which are no state of the block (R31; log 1 to 3). -/
structure State where
  scl : LineCell
  sda : LineCell
  fsr : Fsr
  seq : Seq
  /-- Input: the host's moves still to come. -/
  host : List HostMove
  /-- Input: the answers of the environment already fixed, first one first (R55). -/
  env : List Level
  /-- The number of pin reads answered so far; it feeds the free value `Config.envLevel`. -/
  reads : Nat
  /-- Output: the trace, oldest event first (R11). -/
  trace : List Event
  /-- Output: the response words sent, oldest first (R70). -/
  responses : List ResponseWord
  deriving DecidableEq, Repr

/-- The reasons the MACHINE stops with a fault: none. A contract violation does not stop the block: it sets the sticky
`FSR`, answers and goes on (R163, R165), so it is a next state here (log 15). -/
inductive Fault where
  deriving DecidableEq, Repr

/-- The reasons a step is refused. -/
inductive Refusal where
  /-- Raised by an arm of `exec` whose instruction has no meaning yet; no arm does. Safe: the run stops. -/
  | notModelled (mnemonic : String)
  /-- Raised by a meaning asked to accept a command while another is in progress: "a command word is accepted only when
  `SEQ = Idle`" (R78, U3 `refuse`). `step` never asks. Safe: the run stops (log 7). -/
  | channelBusy
  deriving DecidableEq, Repr

/-- The reset values of the two line cells (R33): both outputs, clock low, data high. -/
def resetScl : LineCell := ⟨.out, false⟩

/-- See `resetScl`. -/
def resetSda : LineCell := ⟨.out, true⟩

/-- The reset value of `FSR` (R33). -/
def resetFsr : Fsr := ⟨false, 0, .scl⟩

/-- The machine right after reset (R33, R191): no event in the trace; no host move and no answer fixed yet (log 1 to 3). -/
def State.reset : State where
  scl := resetScl
  sda := resetSda
  fsr := resetFsr
  seq := .idle
  host := []
  env := []
  reads := 0
  trace := []
  responses := []

end Sys2Proof.Machine
end

