-- ==== Sys2Proof/Machine/Operands.lean ====
section
/-! DEFINITION. The block's integer arithmetic, all of it (spec/44_word_decoder.md R141), and the bit order of a byte. -/

namespace Sys2Proof.Machine

/-- `writeAddress = {dev[6:0], 0}` (R74). -/
def writeAddress (dev : Byte) : Byte := dev.extractLsb' 0 7 ++ 0#1

/-- `readAddress = writeAddress | 1` (R74). -/
def readAddress (dev : Byte) : Byte := writeAddress dev ||| 1

/-- The bits of a byte, most significant first (R53). -/
def msbFirst (b : Byte) : List Level :=
  [b.getLsbD 7, b.getLsbD 6, b.getLsbD 5, b.getLsbD 4, b.getLsbD 3, b.getLsbD 2, b.getLsbD 1, b.getLsbD 0]

/-- A level as an unsigned value (R8), zero-extended to `n` bits (R7). -/
def levelBits (n : Nat) (v : Level) : BitVec n := (BitVec.ofBool v).setWidth n

/-- RECVB's accumulator step: `acc <- ((acc << 1) | zext_8(b))[7:0]` (R122). -/
def shiftIn (acc : Byte) (b : Level) : Byte := (acc <<< 1) ||| levelBits 8 b

/-- `word = zext_16(low) | (zext_16(high) << 8)` (R54, R140). -/
def composeWord (low high : Byte) : BitVec 16 := low.setWidth 16 ||| (high.setWidth 16 <<< 8)

/-- `value = word - 2^16` if `word[15] = 1`, else `word` (R140): the integer a DEC16 response's VALUE denotes. -/
def signedValue (word : BitVec 16) : Int :=
  if word.getLsbD 15 then (word.toNat : Int) - 65536 else word.toNat

/-- The source's `decodeSigned16(low, high)` (R140). -/
def decodeSigned16 (low high : Byte) : Int := signedValue (composeWord low high)

end Sys2Proof.Machine
end

