-- ==== Sys2Proof/Machine/Flags.lean ====
section
/-! DEFINITION. The flags and the packed registers: fault codes (spec/60_exceptions.md R161), `LCTL` and `FSR`
(spec/10_state.md R24, R25), the NACK bits (R30, R131) and the response word (spec/30_encoding.md R75). -/

namespace Sys2Proof.Machine

/-- The fault codes (R161). The last two are reserved and never raised (R168, R172). -/
inductive FaultCode where
  | writeOnNonOutput
  | readOnNonInput
  | useAfterCleanup
  | illegalCommand
  | pinConfigFailure
  | busTimeout
  deriving DecidableEq, Repr

/-- The number of a fault code (R161). -/
def FaultCode.number : FaultCode → BitVec 4
  | .writeOnNonOutput => 1
  | .readOnNonInput => 2
  | .useAfterCleanup => 3
  | .illegalCommand => 4
  | .pinConfigFailure => 5
  | .busTimeout => 6

/-- `FSR` as its six bits `FLINE FCODE[3:0] FAULT` (R25). -/
def Fsr.pack (f : Fsr) : BitVec 6 :=
  (BitVec.ofBool f.fline.bit ++ f.fcode ++ BitVec.ofBool f.fault : BitVec (1 + 4 + 1))

/-- `L_OE`: 1 exactly when the line is configured as output (R24). -/
def LineCell.oe (c : LineCell) : Bool := c.dir == .out

/-- `L_REL`: 1 exactly when the pin was released by cleanup (R24). -/
def LineCell.rel (c : LineCell) : Bool := c.dir == .released

/-- `LCTL` as its six bits `SDA_REL SCL_REL SDA_OE SCL_OE SDA_LATCH SCL_LATCH` (R24). -/
def State.lctl (s : State) : BitVec 6 :=
  (BitVec.ofBool s.sda.rel ++ BitVec.ofBool s.scl.rel ++ BitVec.ofBool s.sda.oe ++ BitVec.ofBool s.scl.oe ++
    BitVec.ofBool s.sda.latch ++ BitVec.ofBool s.scl.latch : BitVec (1 + 1 + 1 + 1 + 1 + 1))

/-- `nk` with bit `j` set to the AckBit `a`, the other bits kept (R131). -/
def setNack (nk : BitVec 3) (j : Fin 3) (a : Level) : BitVec 3 :=
  match j with
  | 0 => (nk.extractLsb' 1 2 ++ BitVec.ofBool a : BitVec (2 + 1))
  | 1 => (nk.extractLsb' 2 1 ++ BitVec.ofBool a ++ nk.extractLsb' 0 1 : BitVec (1 + 1 + 1))
  | 2 => (BitVec.ofBool a ++ nk.extractLsb' 0 2 : BitVec (1 + 2))

/-- `respond(fcode, nack, value)` builds `{fcode[3:0], 0, nack[2:0], value[15:0]}` (R75). -/
def responseWord (fcode : BitVec 4) (nack : BitVec 3) (value : BitVec 16) : ResponseWord :=
  (fcode.setWidth 24 <<< 20) ||| (nack.setWidth 24 <<< 16) ||| value.setWidth 24

end Sys2Proof.Machine
end

