-- ==== Sys2Proof/Machine/Ops.lean ====
section
/-! DEFINITION. The shared operations: the lines, the trace, the environment's answer, responses, raising a fault
(spec/60_exceptions.md R163), the five μops (spec/40_digital_line.md R90 to R95), and the performing of a command's
μop sequence (spec/10_state.md R27, R28; spec/60_exceptions.md R164, R165). -/

namespace Sys2Proof.Machine

/-! ### Accessors -/

/-- The cell of a line (R21, R22). -/
def State.cell (s : State) : Line → LineCell
  | .scl => s.scl
  | .sda => s.sda

/-- `dir[L]` (R21). -/
def State.dir (s : State) (l : Line) : Dir := (s.cell l).dir

/-- `latch[L]` (R22). -/
def State.latch (s : State) (l : Line) : Level := (s.cell l).latch

/-- Writes the cell of one line; the other line is kept. -/
def State.setCell (s : State) (l : Line) (c : LineCell) : State :=
  match l with
  | .scl => { s with scl := c }
  | .sda => { s with sda := c }

/-- `dir[L] <- d`; the latch is kept (R22). -/
def State.setDir (s : State) (l : Line) (d : Dir) : State := s.setCell l ⟨d, s.latch l⟩

/-- `latch[L] <- v`; the direction is kept (R21). -/
def State.setLatch (s : State) (l : Line) (v : Level) : State := s.setCell l ⟨s.dir l, v⟩

/-- `emit e` (R10, R11). -/
def State.emit (s : State) (e : Event) : State := { s with trace := s.trace ++ [e] }

/-- `respond(fcode, nack, value)` (R10, R75). -/
def State.respond (s : State) (fcode : BitVec 4) (nack : BitVec 3) (value : BitVec 16) : State :=
  { s with responses := s.responses ++ [responseWord fcode nack value] }

/-! ### The environment's answer -/

/-- `env()` (R55): the next answer the input list fixes, else the free value (log 3). -/
def State.answer (s : State) : Level :=
  match s.env with
  | v :: _ => v
  | [] => Config.envLevel s.reads s.trace

/-- The answer is consumed. -/
def State.takeAnswer (s : State) : State := { s with env := s.env.tail, reads := s.reads + 1 }

/-! ### Faults -/

/-- `raise Fault(code, L)` (R163), the block's whole trap entry: `FSR` is set, the command is answered with the code and
`SEQ` becomes `Idle`. `FLINE` is 0 for `IllegalCommand`. Everything earlier μops did stands. -/
def State.raiseFault (s : State) (code : FaultCode) (l : Line) : State :=
  State.respond
    { s with
      fsr := ⟨true, code.number, if code = .illegalCommand then .scl else l⟩
      seq := .idle }
    code.number 0 0

/-- The answer of the faulted state to a word it does not perform: the pending code, no other change (R165). -/
def State.respondPending (s : State) : State := s.respond s.fsr.fcode 0 0

/-- What reset does (R190, R191): the block's own state takes the values of R33. No event is emitted and none is taken
back, no response is sent; the interface's inputs and outputs are not state of the block and stay (log 8). This is also the
only way out of the faulted state (R166). -/
def State.resetBlock (s : State) : State :=
  { s with scl := resetScl, sda := resetSda, fsr := resetFsr, seq := .idle }

/-! ### Micro-operations -/

/-- What the calling command does with the level an `RD` returns (R27, R94). -/
inductive Sink where
  /-- It is the value to return (R99, R105, R107, R121). -/
  | ret
  /-- It is shifted into `SEQ.acc` (R122). -/
  | acc
  /-- It is bit `j` of `SEQ.nk` (R131). -/
  | nk (j : Fin 3)
  deriving DecidableEq, Repr

/-- The five micro-operations (R10, R91 to R95). -/
inductive Uop where
  | out (line : Line)
  | inp (line : Line)
  | wr (line : Line) (level : Level)
  | rd (line : Line) (sink : Sink)
  | rel (line : Line)
  deriving DecidableEq, Repr

/-- The line a μop addresses. -/
def Uop.line : Uop → Line
  | .out l => l
  | .inp l => l
  | .wr l _ => l
  | .rd l _ => l
  | .rel l => l

/-- Steps 1 and 2 of R90: the fault a μop raises before it does anything, released lines first (R164), then the direction
(R93, R94). `REL` never faults (R95). -/
def Uop.violation (u : Uop) (s : State) : Option FaultCode :=
  match u with
  | .out l => if s.dir l = .released then some .useAfterCleanup else none
  | .inp l => if s.dir l = .released then some .useAfterCleanup else none
  | .wr l _ =>
    match s.dir l with
    | .released => some .useAfterCleanup
    | .inp => some .writeOnNonOutput
    | .out => none
  | .rd l _ =>
    match s.dir l with
    | .released => some .useAfterCleanup
    | .out => some .readOnNonInput
    | .inp => none
  | .rel _ => none

/-- Steps 3 to 5 of R90: the hardware effect between two `Sleep(HALF)` events. -/
def State.delayed (s : State) (effect : State → State) : State := (effect (s.emit .sleep)).emit .sleep

/-- The level a read returned goes where the command wants it (R27). -/
def Sink.collect (k : Sink) (v : Level) (p : Progress) : Progress :=
  match k with
  | .ret => { p with ret := v }
  | .acc => { p with acc := shiftIn p.acc v }
  | .nk j => { p with nk := setNack p.nk j v }

/-- Changes the fields of `SEQ` while a command is in progress. -/
def State.mapProgress (s : State) (f : Progress → Progress) : State :=
  match s.seq with
  | .idle => s
  | .busy p => { s with seq := .busy (f p) }

/-- The effect of `RD(L)`: `v <- env()`, `emit Rd(L) = v` (R94). -/
def State.readPin (s : State) (l : Line) (k : Sink) : State :=
  ((s.takeAnswer.mapProgress (k.collect s.answer)).emit (.rd l s.answer))

/-- What a μop whose precondition holds does (R91 to R95). -/
def Uop.effect (u : Uop) (s : State) : State :=
  match u with
  | .out l => s.delayed fun t => (t.setDir l .out).emit (.cfgOut l)
  | .inp l => s.delayed fun t => (t.setDir l .inp).emit (.cfgIn l)
  | .wr l v => s.delayed fun t => (t.setLatch l v).emit (.wr l v)
  | .rd l k => s.delayed fun t => t.readPin l k
  | .rel l => if s.dir l = .released then s else (s.emit (.rel l)).setDir l .released

/-- `upc <- upc + 1` (R27). -/
def State.advance (s : State) : State := s.mapProgress fun p => { p with upc := p.upc + 1 }

/-- One step of the block on a μop (R27): its fault, or its effects and the advance of `upc`. -/
def State.performUop (s : State) (u : Uop) : Except FaultCode State :=
  match u.violation s with
  | some code => .error code
  | none => .ok (u.effect s).advance

/-! ### Commands -/

/-- What a command that ran to its end answers (R75). -/
structure Answer where
  nack : BitVec 3
  value : BitVec 16
  deriving DecidableEq, Repr

/-- VALUE and NACK of a command that returns nothing (R75). -/
def Answer.nothing : Answer := ⟨0, 0⟩

/-- VALUE of a command that returns one sampled level (R75). -/
def Answer.level (p : Progress) : Answer := ⟨0, levelBits 16 p.ret⟩

/-- A command as the sequencer sees it: its word, its flattened μop sequence, a function of the command word alone (R26),
its answer, and whether the faulted state performs it (R165). -/
structure Command where
  word : CommandWord
  uops : List Uop
  answer : Progress → Answer
  inFault : Bool

/-- `SEQ <- Busy(w, 0, 0, 0)` (R27). -/
def State.begin (s : State) (w : CommandWord) : State := { s with seq := .busy ⟨w, 0, 0, 0, false⟩ }

/-- The end of a command: its response with `FCODE = 0`, then `SEQ <- Idle` (R27). -/
def State.finish (s : State) (answer : Progress → Answer) : State :=
  match s.seq with
  | .idle => s
  | .busy p => State.respond { s with seq := .idle } 0 (answer p).nack (answer p).value

/-- A run of μops: the state after all of them, or the first violation, with its line and the state it met. -/
inductive Run where
  | done (s : State)
  | violated (code : FaultCode) (line : Line) (s : State)
  deriving DecidableEq, Repr

/-- Performs μops in order and stops at the first whose precondition fails (R27, R163). -/
def runUops : List Uop → State → Run
  | [], s => .done s
  | u :: us, s =>
    match s.performUop u with
    | .error code => .violated code u.line s
    | .ok t => runUops us t

/-- How a run ends: with the command's response, or with the fault (R27, R163). -/
def Run.conclude (answer : Progress → Answer) : Run → State
  | .done s => s.finish answer
  | .violated code l s => s.raiseFault code l

/-- Accepts and performs a whole command (R28). It is refused while another is in progress (R78); in the faulted state
only some commands are performed and the others get the pending code (R165). -/
def Command.perform (c : Command) (s : State) : Host.Outcome State Fault Refusal :=
  match s.seq with
  | .busy _ => .refused .channelBusy
  | .idle =>
    if s.fsr.fault && !c.inFault then .next s.respondPending
    else .next ((runUops c.uops (s.begin c.word)).conclude c.answer)

end Sys2Proof.Machine
end

