-- ==== Sys2Proof/Machine/DigitalLine.lean ====
section
/-! DEFINITION. The five line commands: each performs one μop on the line its operand selects
(spec/40_digital_line.md R96 to R100). -/

namespace Sys2Proof.Machine

/-- LNOUT (R96): `OUT(line); respond(0, 0, 0)`. -/
def lnoutCommand (line : Line) : Command where
  word := encode (.lnout line)
  uops := [.out line]
  answer := fun _ => .nothing
  inFault := false

def execLnout (line : Line) (s : State) : Host.Outcome State Fault Refusal := (lnoutCommand line).perform s

/-- LNIN (R97): `INP(line); respond(0, 0, 0)`. -/
def lninCommand (line : Line) : Command where
  word := encode (.lnin line)
  uops := [.inp line]
  answer := fun _ => .nothing
  inFault := false

def execLnin (line : Line) (s : State) : Host.Outcome State Fault Refusal := (lninCommand line).perform s

/-- LNWR (R98): `WR(line, level); respond(0, 0, 0)`. -/
def lnwrCommand (line : Line) (level : Level) : Command where
  word := encode (.lnwr line level)
  uops := [.wr line level]
  answer := fun _ => .nothing
  inFault := false

def execLnwr (line : Line) (level : Level) (s : State) : Host.Outcome State Fault Refusal :=
  (lnwrCommand line level).perform s

/-- LNRD (R99): `v <- RD(line); respond(0, 0, zext_16(v))`. -/
def lnrdCommand (line : Line) : Command where
  word := encode (.lnrd line)
  uops := [.rd line .ret]
  answer := .level
  inFault := false

def execLnrd (line : Line) (s : State) : Host.Outcome State Fault Refusal := (lnrdCommand line).perform s

/-- LNREL (R100): `REL(line); respond(0, 0, 0)`, in every state, the faulted one included (R165). -/
def lnrelCommand (line : Line) : Command where
  word := encode (.lnrel line)
  uops := [.rel line]
  answer := fun _ => .nothing
  inFault := true

def execLnrel (line : Line) (s : State) : Host.Outcome State Fault Refusal := (lnrelCommand line).perform s

end Sys2Proof.Machine
end

