-- ==== Sys2Proof/Machine/Lifecycle.lean ====
section
/-! DEFINITION. The lifecycle command (spec/45_lifecycle.md R150). -/

namespace Sys2Proof.Machine

/-- CLEANUP (R150): `REL(SCL); REL(SDA); respond(0, 0, 0)`, in every state, the faulted one included (R165). -/
def cleanupCommand : Command where
  word := encode .cleanup
  uops := [.rel .scl, .rel .sda]
  answer := fun _ => .nothing
  inFault := true

def execCleanup (s : State) : Host.Outcome State Fault Refusal := cleanupCommand.perform s

end Sys2Proof.Machine
end

