-- ==== Sys2Proof/Machine/Signalling.lean ====
section
/-! DEFINITION. The six bus signalling primitives (spec/41_bus_signalling.md R101 to R107). -/

namespace Sys2Proof.Machine

/-- The START sequence (R102). -/
def startUops : List Uop := [.wr .sda true, .wr .scl true, .wr .sda false, .wr .scl false]

/-- START (R102). -/
def startCommand : Command where
  word := encode .start
  uops := startUops
  answer := fun _ => .nothing
  inFault := false

def execStart (s : State) : Host.Outcome State Fault Refusal := startCommand.perform s

/-- The STOP sequence, four μops: the clock ends low (R103, C1). -/
def stopUops : List Uop := [.wr .sda false, .wr .scl true, .wr .sda true, .wr .scl false]

/-- STOP (R103). -/
def stopCommand : Command where
  word := encode .stop
  uops := stopUops
  answer := fun _ => .nothing
  inFault := false

def execStop (s : State) : Host.Outcome State Fault Refusal := stopCommand.perform s

/-- The WBIT sequence (R104). -/
def wbitUops (bit : Level) : List Uop := [.wr .sda bit, .wr .scl true, .wr .scl false]

/-- WBIT (R104). -/
def wbitCommand (bit : Level) : Command where
  word := encode (.wbit bit)
  uops := wbitUops bit
  answer := fun _ => .nothing
  inFault := false

def execWbit (bit : Level) (s : State) : Host.Outcome State Fault Refusal := (wbitCommand bit).perform s

/-- The RBIT sequence (R105); the caller says where the sampled bit goes. -/
def rbitUops (k : Sink) : List Uop := [.inp .sda, .wr .scl true, .rd .sda k, .wr .scl false]

/-- RBIT (R105): VALUE is the sampled level. -/
def rbitCommand : Command where
  word := encode .rbit
  uops := rbitUops .ret
  answer := .level
  inFault := false

def execRbit (s : State) : Host.Outcome State Fault Refusal := rbitCommand.perform s

/-- The SACK sequence (R106); "restore" is `WR(SDA, 1)` (D5). -/
def sackUops : List Uop := [.wr .sda false, .wr .scl true, .wr .scl false, .wr .sda true]

/-- SACK (R106). -/
def sackCommand : Command where
  word := encode .sack
  uops := sackUops
  answer := fun _ => .nothing
  inFault := false

def execSack (s : State) : Host.Outcome State Fault Refusal := sackCommand.perform s

/-- The CACK sequence (R107); the caller says where the AckBit goes. -/
def cackUops (k : Sink) : List Uop := [.inp .sda, .wr .scl true, .rd .sda k, .wr .scl false]

/-- CACK (R107): VALUE is the AckBit. -/
def cackCommand : Command where
  word := encode .cack
  uops := cackUops .ret
  answer := .level
  inFault := false

def execCack (s : State) : Host.Outcome State Fault Refusal := cackCommand.perform s

end Sys2Proof.Machine
end

