-- ==== Sys2Proof/Machine/ByteTransfer.lean ====
section
/-! DEFINITION. The byte-level transfer engine (spec/42_byte_transfer.md R120 to R122). -/

namespace Sys2Proof.Machine

/-- The SENDB sequence, 30 μops (R121): eight WBIT sequences most significant bit first, release, CACK, re-acquire. -/
def sendbUops (byte : Byte) (k : Sink) : List Uop :=
  (msbFirst byte).flatMap wbitUops ++ [.inp .sda] ++ cackUops k ++ [.out .sda]

/-- SENDB (R121): VALUE is the AckBit. -/
def sendbCommand (byte : Byte) : Command where
  word := encode (.sendb byte)
  uops := sendbUops byte .ret
  answer := .level
  inFault := false

def execSendb (byte : Byte) (s : State) : Host.Outcome State Fault Refusal := (sendbCommand byte).perform s

/-- The RECVB sequence, 38 μops (R122): release, eight RBIT sequences into `acc`, re-acquire, SACK. -/
def recvbUops : List Uop :=
  [.inp .sda] ++ (List.replicate 8 (rbitUops .acc)).flatten ++ [.out .sda] ++ sackUops

/-- RECVB (R122): VALUE is `acc`, which starts at 0 (R26). -/
def recvbCommand : Command where
  word := encode .recvb
  uops := recvbUops
  answer := fun p => ⟨0, p.acc.setWidth 16⟩
  inFault := false

def execRecvb (s : State) : Host.Outcome State Fault Refusal := recvbCommand.perform s

end Sys2Proof.Machine
end

