-- ==== Sys2Proof/Machine/RegisterTransaction.lean ====
section
/-! DEFINITION. The register-read transaction (spec/43_register_transaction.md R130 to R133). -/

namespace Sys2Proof.Machine

/-- The RDREG sequence, 144 μops (R130, R132): the in-place composition of STOP, START, SENDB, SENDB, START, SENDB,
RECVB, STOP; the three AckBits are collected in `SEQ.nk` (R131). -/
def rdregUops (dev reg : Byte) : List Uop :=
  stopUops ++ startUops ++ sendbUops (writeAddress dev) (.nk 0) ++ sendbUops reg (.nk 1) ++ startUops ++
    sendbUops (readAddress dev) (.nk 2) ++ recvbUops ++ stopUops

/-- RDREG (R130): NACK is `{a3, a2, a1}`, VALUE is the byte. -/
def rdregCommand (dev reg : Byte) : Command where
  word := encode (.rdreg dev reg)
  uops := rdregUops dev reg
  answer := fun p => ⟨p.nk, p.acc.setWidth 16⟩
  inFault := false

def execRdreg (dev reg : Byte) (s : State) : Host.Outcome State Fault Refusal := (rdregCommand dev reg).perform s

end Sys2Proof.Machine
end

