-- ==== Sys2Proof/Machine/WordDecoder.lean ====
section
/-! DEFINITION. The two's-complement word decoder (spec/44_word_decoder.md R140). -/

namespace Sys2Proof.Machine

/-- DEC16 (R140): no μop, no event; VALUE is the word; performed in every state, the faulted one included (R165). -/
def dec16Command (low high : Byte) : Command where
  word := encode (.dec16 low high)
  uops := []
  answer := fun _ => ⟨0, composeWord low high⟩
  inFault := true

def execDec16 (low high : Byte) (s : State) : Host.Outcome State Fault Refusal := (dec16Command low high).perform s

end Sys2Proof.Machine
end

