-- ==== Sys2Proof/Machine/Dispatch.lean ====
section
/-! DEFINITION. One arm per command (spec/30_encoding.md R73): each calls its meaning. -/

namespace Sys2Proof.Machine

def exec (i : Instr) (s : State) : Host.Outcome State Fault Refusal :=
  match i with
  | .lnout line => Sys2Proof.Machine.execLnout line s
  | .lnin line => Sys2Proof.Machine.execLnin line s
  | .lnwr line level => Sys2Proof.Machine.execLnwr line level s
  | .lnrd line => Sys2Proof.Machine.execLnrd line s
  | .lnrel line => Sys2Proof.Machine.execLnrel line s
  | .start => Sys2Proof.Machine.execStart s
  | .stop => Sys2Proof.Machine.execStop s
  | .wbit bit => Sys2Proof.Machine.execWbit bit s
  | .rbit => Sys2Proof.Machine.execRbit s
  | .sack => Sys2Proof.Machine.execSack s
  | .cack => Sys2Proof.Machine.execCack s
  | .sendb byte => Sys2Proof.Machine.execSendb byte s
  | .recvb => Sys2Proof.Machine.execRecvb s
  | .rdreg dev reg => Sys2Proof.Machine.execRdreg dev reg s
  | .dec16 low high => Sys2Proof.Machine.execDec16 low high s
  | .cleanup => Sys2Proof.Machine.execCleanup s

end Sys2Proof.Machine
end

