-- ==== Sys2Proof/Machine/Sequencer.lean ====
section
/-! DEFINITION. The sequencer at μop granularity: one step performs the μop at index `upc` of the command in progress
(spec/10_state.md R26, R27), over the same sequences `exec` performs whole (R28). -/

namespace Sys2Proof.Machine

/-- The sequencer's view of each command, the one its meaning performs. -/
def commandOf : Instr → Command
  | .lnout line => lnoutCommand line
  | .lnin line => lninCommand line
  | .lnwr line level => lnwrCommand line level
  | .lnrd line => lnrdCommand line
  | .lnrel line => lnrelCommand line
  | .start => startCommand
  | .stop => stopCommand
  | .wbit bit => wbitCommand bit
  | .rbit => rbitCommand
  | .sack => sackCommand
  | .cack => cackCommand
  | .sendb byte => sendbCommand byte
  | .recvb => recvbCommand
  | .rdreg dev reg => rdregCommand dev reg
  | .dec16 low high => dec16Command low high
  | .cleanup => cleanupCommand

/-- A `REL` of a line that is already released: "nothing at all" (R95). -/
def Uop.isVoid (u : Uop) (s : State) : Bool :=
  match u with
  | .out _ => false
  | .inp _ => false
  | .wr _ _ => false
  | .rd _ _ => false
  | .rel l => s.dir l == .released

/-- Brings the sequencer, with the μops `us` still to do, to its next μop that does anything, or to the command's end: a
command with nothing left "responds at once" (R27, its CLEANUP or LNREL "that finds its lines already released"; log 5). -/
def settle (answer : Progress → Answer) : List Uop → State → State
  | [], s => s.finish answer
  | u :: us, s => if u.isVoid s then settle answer us s.advance else s

/-- Acceptance of a legal command in `Idle`: decoding is done, the faulted state decides first (R164, R165), and `SEQ`
becomes `Busy(w, 0, 0, 0)` unless nothing is to be done (R27). -/
def Command.accept (c : Command) (s : State) : State :=
  if s.fsr.fault && !c.inFault then s.respondPending else settle c.answer c.uops (s.begin c.word)

/-- One μop of the command `p.cmd` in progress (R27). A word in progress that is no command, and an `upc` past the end,
are met in no run (log 14). -/
def State.stepBusy (s : State) (p : Progress) : State :=
  match decode p.cmd with
  | .error _ => s.raiseFault .illegalCommand .scl
  | .ok i =>
    match (commandOf i).uops.drop p.upc.toNat with
    | [] => s.finish (commandOf i).answer
    | u :: us =>
      match s.performUop u with
      | .error code => s.raiseFault code u.line
      | .ok t => settle (commandOf i).answer us t

end Sys2Proof.Machine
end

