-- ==== Sys2Proof/Machine/HostChannel.lean ====
section
/-! DEFINITION. The command channel and the reset input: what one step does with the host's next move
(spec/30_encoding.md R70, R76, R78; spec/60_exceptions.md R164, R165, R175; spec/70_reset_and_hazards.md R190). -/

namespace Sys2Proof.Machine

/-- An illegal word met in `Idle`: it raises `Fault(IllegalCommand, line 0)`, or in the faulted state is answered with
the pending code (R76, R164, R165). -/
def State.rejectWord (s : State) : State :=
  if s.fsr.fault then s.respondPending else s.raiseFault .illegalCommand .scl

/-- A word accepted in `Idle` and performed whole (R28). -/
def acceptWord (w : CommandWord) (s : State) : Host.Outcome State Fault Refusal :=
  match decode w with
  | .error _ => .next s.rejectWord
  | .ok i => exec i s

/-- A word accepted in `Idle` and left to be performed μop by μop (R27). -/
def beginWord (w : CommandWord) (s : State) : State :=
  match decode w with
  | .error _ => s.rejectWord
  | .ok i => (commandOf i).accept s

/-- The host's next move is taken. -/
def State.popHost (s : State) : State := { s with host := s.host.tail }

/-- One step in `Idle`: the host's next move, or nothing when it has none (R60, R78). -/
def State.stepIdle (s : State) : Host.Outcome State Fault Refusal :=
  match s.host with
  | [] => .next s
  | .issue w :: _ => acceptWord w s.popHost
  | .issueStepped w :: _ => .next (beginWord w s.popHost)
  | .wait :: _ => .next s.popHost
  | .reset :: _ => .next s.popHost.resetBlock

/-- One step while a command is in progress: the next μop (R27), or reset, the only thing that interrupts a command (R20,
R190). A word the host offers meanwhile is not transferred: it stays with the host (R78). -/
def State.stepInProgress (s : State) (p : Progress) : State :=
  match s.host with
  | [] => s.stepBusy p
  | .issue _ :: _ => s.stepBusy p
  | .issueStepped _ :: _ => s.stepBusy p
  | .wait :: _ => s.popHost.stepBusy p
  | .reset :: _ => s.popHost.resetBlock

/-- One step of the machine. -/
def State.next (s : State) : Host.Outcome State Fault Refusal :=
  match s.seq with
  | .idle => s.stepIdle
  | .busy p => .next (s.stepInProgress p)

/-- The machine with the word `w` as the host's next move and the channel ready for it, so that the next step accepts and
performs exactly it (log 16). -/
def State.offerWord (s : State) (w : CommandWord) : State := { s with host := .issue w :: s.host, seq := .idle }

end Sys2Proof.Machine
end

