-- ==== Sys2Proof/Machine/Step.lean ====
section
/-! DEFINITION. The step function, and the placing of a word where the next step takes it. -/

namespace Sys2Proof.Machine

/-- One step: the host's next move when the block is idle, the next μop when a command is in progress. -/
def step (s : State) : Host.Outcome State Fault Refusal := s.next

/-- The block fetches from no memory (spec/20_memory.md R62): its next word is the host's next move (log 16). -/
def State.withFetchWord (s : State) (nbits w : Nat) : State := s.offerWord (BitVec.ofNat 24 (w % 2 ^ nbits))

end Sys2Proof.Machine
end

