-- ==== Sys2Proof/Machine/Wire.lean ====
section
/-! DEFINITION. What an observer outside the block sees: the wire level (spec/10_state.md R23), the pad signals
(spec/60_exceptions.md R173), START and STOP conditions, clock edges and data bits (spec/41_bus_signalling.md R108), at a
reset too (spec/70_reset_and_hazards.md R191). These are views of the state and of the trace, not state. -/

namespace Sys2Proof.Machine

/-- `wire(L)` (R23): the latch while the block drives the line, else what is outside puts there, the argument (U8; log 13). -/
def State.wire (s : State) (l : Line) (outside : Level) : Level :=
  match s.dir l with
  | .out => s.latch l
  | .inp => outside
  | .released => outside

/-- The level outside a line configured as input that nothing pulls low: the pull-up's (R23, R55). -/
def unpulledLevel : Level := true

/-- The four output signals of one pad (R173). -/
structure LinePads where
  o : Level
  oe : Bool
  pue : Bool
  own : Bool
  deriving DecidableEq, Repr

/-- The pads of both lines. -/
structure Pads where
  scl : LinePads
  sda : LinePads
  deriving DecidableEq, Repr

/-- The pad signals of a line cell (R173). -/
def LineCell.pads (c : LineCell) : LinePads where
  o := c.latch
  oe := c.dir == .out
  pue := c.dir == .inp
  own := !(c.dir == .released)

/-- The pad signals of the block (R173). -/
def State.pads (s : State) : Pads := ⟨s.scl.pads, s.sda.pads⟩

/-- The pads of one line. -/
def Pads.get (p : Pads) : Line → LinePads
  | .scl => p.scl
  | .sda => p.sda

/-- Changes the pads of one line. -/
def Pads.modify (p : Pads) (l : Line) (f : LinePads → LinePads) : Pads :=
  match l with
  | .scl => { p with scl := f p.scl }
  | .sda => { p with sda := f p.sda }

/-- What each GPIO call does to the pads (R173). -/
def Pads.after (p : Pads) : Event → Pads
  | .sleep => p
  | .cfgOut l => p.modify l fun q => { q with oe := true, pue := false }
  | .cfgIn l => p.modify l fun q => { q with oe := false, pue := true }
  | .wr l v => p.modify l fun q => { q with o := v }
  | .rd _ _ => p
  | .rel l => p.modify l fun q => { q with oe := false, pue := false, own := false }

/-- The wire level of a pad: driven, or the outside's (R23). -/
def LinePads.wire (q : LinePads) (outside : Level) : Level := if q.oe then q.o else outside

/-- The levels of the two wires at one instant, as an outside observer sees them (R23). -/
structure WireState where
  scl : Level
  sda : Level
  deriving DecidableEq, Repr

/-- The wires while the outside puts the levels `outside` on the lines (R23). -/
def Pads.wires (p : Pads) (outside : Line → Level) : WireState :=
  ⟨p.scl.wire (outside .scl), p.sda.wire (outside .sda)⟩

/-- The wires of the block's state (R23). -/
def State.wires (s : State) (outside : Line → Level) : WireState :=
  ⟨s.wire .scl (outside .scl), s.wire .sda (outside .sda)⟩

/-- A condition on the wire (R108). -/
inductive Condition where
  | start
  | stop
  deriving DecidableEq, Repr

/-- The condition between two instants (R108): a change of the data line while the clock is high. -/
def conditionBetween (a b : WireState) : Option Condition :=
  if a.scl && b.scl then
    if a.sda && !b.sda then some .start
    else if !a.sda && b.sda then some .stop
    else none
  else none

/-- A clock edge (R108). -/
inductive ClockEdge where
  | rising
  | falling
  deriving DecidableEq, Repr

/-- The clock edge between two instants (R108): a change of the clock line, whatever made it, while the data line is
stable. -/
def clockEdgeBetween (a b : WireState) : Option ClockEdge :=
  if a.sda == b.sda then
    if !a.scl && b.scl then some .rising
    else if a.scl && !b.scl then some .falling
    else none
  else none

/-- The instants of a trace: the wires before and after each event. `outside n l` is the level the outside puts on the line
`l` at the time of the `n`-th event, held while the event happens; it may be another at the next event (log 13). -/
def wireHistory (outside : Nat → Line → Level) : Nat → Pads → List Event → List WireState
  | _, _, [] => []
  | n, p, e :: es =>
    p.wires (outside n) :: (p.after e).wires (outside n) :: wireHistory outside (n + 1) (p.after e) es

/-- The clock edges of a history that begins at the instant `a`. -/
def clockEdges : WireState → List WireState → List ClockEdge
  | _, [] => []
  | a, b :: ws => (clockEdgeBetween a b).toList ++ clockEdges b ws

/-- What an observer takes from the wire (R108). -/
inductive Seen where
  | condition (c : Condition)
  | bit (v : Level)
  deriving DecidableEq, Repr

/-- What an observer keeps: the last instant, and the level of the data line if a rising clock edge has been seen and
nothing has changed since (R108). -/
structure Observer where
  last : WireState
  held : Option Level
  deriving DecidableEq, Repr

/-- What the observer keeps after the next instant. -/
def Observer.after (o : Observer) (b : WireState) : Observer where
  last := b
  held :=
    match clockEdgeBetween o.last b with
    | some .rising => some b.sda
    | some .falling => none
    | none => if b = o.last then o.held else none

/-- What the observer sees between the last instant and the next one (R108): a condition; or, at a falling clock edge, the
data bit, "the value of `wire(SDA)` while `wire(SCL) = 1` between a rising and the next falling clock edge". A clock pulse
in which the data line changed has a condition and no such value, so no bit (log 17). -/
def Observer.sees (o : Observer) (b : WireState) : List Seen :=
  (conditionBetween o.last b).toList.map Seen.condition ++
    (match clockEdgeBetween o.last b with
    | some .rising => []
    | some .falling => o.held.toList.map Seen.bit
    | none => [])

/-- Everything an observer sees over a history (R108), whoever caused it. -/
def Observer.watch : Observer → List WireState → List Seen
  | _, [] => []
  | o, b :: ws => o.sees b ++ (o.after b).watch ws

/-- The observer at the end of a history. -/
def Observer.afterAll (o : Observer) (ws : List WireState) : Observer := ws.foldl Observer.after o

/-- What an observer that starts to look when the pads are `p` sees of the events `es` (R108, R134). -/
def observed (outside : Nat → Line → Level) (p : Pads) (es : List Event) : List Seen :=
  Observer.watch ⟨p.wires (outside 0), none⟩ (wireHistory outside 0 p es)

/-- The clock edges an observer that starts to look when the pads are `p` sees of the events `es` (R108). -/
def edgesObserved (outside : Nat → Line → Level) (p : Pads) (es : List Event) : List ClockEdge :=
  clockEdges (p.wires (outside 0)) (wireHistory outside 0 p es)

/-- What happens at the pins at one moment of a run: an event, or a reset, which emits none (spec/70_reset_and_hazards.md
R191). `flicker` is what the wires show at the instant of the reset, any levels in any number: their change "is not timed"
and "may put a spurious condition on the wire" (R191; spec/93_implementation_defined.md U19 `any value`; log 18). -/
inductive Moment where
  | event (e : Event)
  | reset (flicker : List WireState)
  deriving DecidableEq, Repr

/-- The pads in the reset state (R191). -/
def resetPads : Pads := ⟨resetScl.pads, resetSda.pads⟩

/-- What a moment does to the pads: an event what R173 says, a reset puts them in the reset state directly (R191). -/
def Pads.afterMoment (p : Pads) : Moment → Pads
  | .event e => p.after e
  | .reset _ => resetPads

/-- The instants of a run of moments: the wires before and after each, and at a reset whatever they show between. -/
def momentHistory (outside : Nat → Line → Level) : Nat → Pads → List Moment → List WireState
  | _, _, [] => []
  | n, p, .event e :: ms =>
    p.wires (outside n) :: (p.after e).wires (outside n) :: momentHistory outside (n + 1) (p.after e) ms
  | n, p, .reset flicker :: ms =>
    p.wires (outside n) :: (flicker ++ resetPads.wires (outside n) :: momentHistory outside (n + 1) resetPads ms)

/-- What an observer that starts to look when the pads are `p` sees of a run of moments, resets among them (R108, R191). -/
def observedOver (outside : Nat → Line → Level) (p : Pads) (ms : List Moment) : List Seen :=
  Observer.watch ⟨p.wires (outside 0), none⟩ (momentHistory outside 0 p ms)

/-- The moments of a step from `s` to `t`: a reset if that is the host's next move (R190), else the events it emitted. -/
def stepMoments (flicker : List WireState) (s t : State) : List Moment :=
  if s.host.head? = some .reset then [.reset flicker] else (t.trace.drop s.trace.length).map .event

/-- The moments of `k` steps from `s`; `flicker j` is what the wires show if the step with `j` steps to go is a reset. -/
def runMoments (flicker : Nat → List WireState) : Nat → State → List Moment
  | 0, _ => []
  | k + 1, s =>
    match step s with
    | .next t => stepMoments (flicker k) s t ++ runMoments flicker k t
    | .fault _ => []
    | .refused _ => []

/-- The conditions the block's own pin events put on the wire, in order (R108): those across an event, not those the
outside makes between two events (log 13). -/
def conditionsSeen (outside : Nat → Line → Level) : Nat → Pads → List Event → List Condition
  | _, _, [] => []
  | n, p, e :: es =>
    (conditionBetween (p.wires (outside n)) ((p.after e).wires (outside n))).toList ++
      conditionsSeen outside (n + 1) (p.after e) es

/-- The record of R123, made at each `Wr(SCL, 1)` event, edge or not: the level the block drives on the data line, or `none`
where the block only listens. The data bits of R108 are `observed`'s. -/
def risingSamples : Pads → List Event → List (Option Level)
  | _, [] => []
  | p, e :: es =>
    let q := p.after e
    (if e = .wr .scl true then [if q.sda.oe then some q.sda.o else none] else []) ++ risingSamples q es

end Sys2Proof.Machine
end

