-- ==== Sys2Proof/Safety.lean ====
section
/-! DEFINITION. The terms claims use: when a command runs, what it adds to the trace, what a good state is. -/

namespace Sys2Proof.Machine

/-- The block accepts a command and is not in the faulted state (R78, R165). -/
def State.Ready (s : State) : Prop := s.seq = .idle ∧ s.fsr.fault = false

/-- Both lines are outputs: the entry state of every bus primitive (R101, R196). -/
def State.BothOut (s : State) : Prop := s.scl.dir = .out ∧ s.sda.dir = .out

/-- The events of one μop (R90, R95): its pin event between two sleeps, a release alone. -/
def Event.bracketed : Event → List Event
  | .sleep => []
  | .cfgOut l => [.sleep, .cfgOut l, .sleep]
  | .cfgIn l => [.sleep, .cfgIn l, .sleep]
  | .wr l v => [.sleep, .wr l v, .sleep]
  | .rd l v => [.sleep, .rd l v, .sleep]
  | .rel l => [.rel l]

/-- A list of pin events with the sleeps that stand around them (R203). -/
def withSleeps (pins : List Event) : List Event := pins.flatMap Event.bracketed

/-- The number of calls of `sleep` in a trace (R203). -/
def sleepCalls (t : List Event) : Nat := t.count .sleep

/-- A trace with the levels that were read blotted out (R133). -/
def Event.blind : Event → Event
  | .sleep => .sleep
  | .cfgOut l => .cfgOut l
  | .cfgIn l => .cfgIn l
  | .wr l v => .wr l v
  | .rd l _ => .rd l false
  | .rel l => .rel l

/-- The byte a list of bits spells, first bit most significant (R53, R123). -/
def byteOfBits (bits : List Level) : Byte :=
  BitVec.ofNat 8 (bits.foldl (fun n b => 2 * n + b.toNat) 0)

/-- The pin events of one written bit: data, clock up, clock down (R104). -/
def bitSent (v : Level) : List Event := [.wr .sda v, .wr .scl true, .wr .scl false]

/-- The pin events of one bit slot in which the block listens (R105, R107). -/
def bitHeard (v : Level) : List Event := [.cfgIn .sda, .wr .scl true, .rd .sda v, .wr .scl false]

/-- The pin events of a START (R102). -/
def startPins : List Event := [.wr .sda true, .wr .scl true, .wr .sda false, .wr .scl false]

/-- The pin events of a STOP (R103). -/
def stopPins : List Event := [.wr .sda false, .wr .scl true, .wr .sda true, .wr .scl false]

/-- The pin events of a SENDB of `b` answered by the AckBit `a` (R121). -/
def sendbPins (b : Byte) (a : Level) : List Event :=
  (msbFirst b).flatMap bitSent ++ [.cfgIn .sda] ++ bitHeard a ++ [.cfgOut .sda]

/-- The pin events of a RECVB that samples the byte `b` (R122). -/
def recvbPins (b : Byte) : List Event :=
  [.cfgIn .sda] ++ (msbFirst b).flatMap bitHeard ++ [.cfgOut .sda] ++
    [.wr .sda false, .wr .scl true, .wr .scl false, .wr .sda true]

/-- The pin events of a RDREG with the AckBits `a1 a2 a3` and the byte `b` (R130, R132). -/
def rdregPins (dev reg : Byte) (a1 a2 a3 : Level) (b : Byte) : List Event :=
  stopPins ++ startPins ++ sendbPins (writeAddress dev) a1 ++ sendbPins reg a2 ++ startPins ++
    sendbPins (readAddress dev) a3 ++ recvbPins b ++ stopPins

/-- The three commands the faulted state performs (R165). -/
def performedInFault : Instr → Bool
  | .lnout _ => false
  | .lnin _ => false
  | .lnwr _ _ => false
  | .lnrd _ => false
  | .lnrel _ => true
  | .start => false
  | .stop => false
  | .wbit _ => false
  | .rbit => false
  | .sack => false
  | .cack => false
  | .sendb _ => false
  | .recvb => false
  | .rdreg _ _ => false
  | .dec16 _ _ => true
  | .cleanup => true

/-- The table of R204: how many delayed μops a command that does not fault performs. -/
def delayedUops : Instr → Nat
  | .lnout _ => 1
  | .lnin _ => 1
  | .lnwr _ _ => 1
  | .lnrd _ => 1
  | .lnrel _ => 0
  | .start => 4
  | .stop => 4
  | .wbit _ => 3
  | .rbit => 4
  | .sack => 4
  | .cack => 4
  | .sendb _ => 30
  | .recvb => 38
  | .rdreg _ _ => 144
  | .dec16 _ _ => 0
  | .cleanup => 0

/-- `FSR` holds a code that can be raised exactly when it holds a fault (R25, R34 (b), R161, U21). -/
def Fsr.Good (f : Fsr) : Prop :=
  (f.fault = false → f.fcode = 0 ∧ f.fline = .scl) ∧
  (f.fault = true → 1 ≤ f.fcode.toNat ∧ f.fcode.toNat ≤ 4) ∧
  (f.fcode = 4 → f.fline = .scl)

/-- A command in progress is a legal one, stands before one of its μops, has not run past any, and is one the faulted
state performs if the block is faulted (R26, R27, R165). -/
def Seq.Good (f : Fsr) : Seq → Prop
  | .idle => True
  | .busy p => ∃ i, decode p.cmd = .ok i ∧ p.upc.toNat < (commandOf i).uops.length ∧
      (f.fault = true → performedInFault i = true)

/-- A response that can be sent: bit 19 is 0 and the fault code is 0 to 4 (R75, U21). -/
def GoodResponse (r : ResponseWord) : Prop := r.getLsbD 19 = false ∧ (r.extractLsb' 20 4).toNat ≤ 4

/-- The invariant of the state (R34, with U21 for the responses). -/
def State.Inv (s : State) : Prop :=
  s.fsr.Good ∧ s.seq.Good s.fsr ∧ ∀ r ∈ s.responses, GoodResponse r

/-- The bits of `arg` that each opcode's format reserves (R71: formats Z, L, LV, B1, B8, A, W). -/
def reservedArgBits (op : Nat) : BitVec 16 :=
  match op with
  | 0x01 => 0xFFFE
  | 0x02 => 0xFFFE
  | 0x03 => 0xFEFE
  | 0x04 => 0xFFFE
  | 0x05 => 0xFFFE
  | 0x08 => 0xFFFE
  | 0x0C => 0xFF00
  | 0x0E => 0x8000
  | 0x0F => 0x0000
  | _ => 0xFFFF

/-- A word that is no command: a reserved opcode, or a 1 in a reserved operand bit (R76). -/
def IllegalCommandWord (w : CommandWord) : Prop :=
  (opField w = 0 ∨ 0x10 < (opField w).toNat) ∨ argField w &&& reservedArgBits (opField w).toNat ≠ 0

/-- The state in which a contract violation leaves an idle block: `FSR` set, the command answered with the code (R163). -/
def State.faulted (s : State) (code : BitVec 4) (l : Line) : State :=
  { s with fsr := ⟨true, code, l⟩, responses := s.responses ++ [responseWord code 0 0] }

/-- How a command that begins with `WR(SDA, v); WR(SCL, _)` faults (R101, R164, R171): at its first μop if the data line is
no output, nothing emitted, else at its second if the clock is none, the data write standing. -/
def DataWriteFaults (i : Instr) (v : Level) (s : State) : Prop :=
  (s.sda.dir = .inp → exec i s = .next (s.faulted 1 .sda)) ∧
  (s.sda.dir = .released → exec i s = .next (s.faulted 3 .sda)) ∧
  (s.sda.dir = .out → s.scl.dir = .inp → exec i s = .next
    (State.faulted { s with sda := ⟨.out, v⟩, trace := s.trace ++ [.sleep, .wr .sda v, .sleep] } 1 .scl)) ∧
  (s.sda.dir = .out → s.scl.dir = .released → exec i s = .next
    (State.faulted { s with sda := ⟨.out, v⟩, trace := s.trace ++ [.sleep, .wr .sda v, .sleep] } 3 .scl))

/-- How a command that begins with `n` times `INP(SDA)`, then `WR(SCL, 1)`, faults (R105, R107, R122, R171). -/
def DataReleaseFaults (i : Instr) (n : Nat) (s : State) : Prop :=
  (s.sda.dir = .released → exec i s = .next (s.faulted 3 .sda)) ∧
  (s.sda.dir ≠ .released → s.scl.dir = .inp → exec i s = .next
    (State.faulted { s with sda := ⟨.inp, s.sda.latch⟩, trace := s.trace ++ withSleeps (List.replicate n (.cfgIn .sda)) } 1 .scl)) ∧
  (s.sda.dir ≠ .released → s.scl.dir = .released → exec i s = .next
    (State.faulted { s with sda := ⟨.inp, s.sda.latch⟩, trace := s.trace ++ withSleeps (List.replicate n (.cfgIn .sda)) } 3 .scl))

/-- A command that addresses the clock line alone; the table of R196 has no row for these. -/
def addressesClockOnly : Instr → Bool
  | .lnout l => l == .scl
  | .lnin l => l == .scl
  | .lnwr l _ => l == .scl
  | .lnrd l => l == .scl
  | .lnrel l => l == .scl
  | .start => false
  | .stop => false
  | .wbit _ => false
  | .rbit => false
  | .sack => false
  | .cack => false
  | .sendb _ => false
  | .recvb => false
  | .rdreg _ _ => false
  | .dec16 _ _ => false
  | .cleanup => false

/-- "needs `dir[SDA]`" (R196). -/
def needsSdaDir (i : Instr) (d : Dir) : Bool :=
  match i with
  | .lnout _ => d != .released
  | .lnin _ => d != .released
  | .lnwr _ _ => d == .out
  | .lnrd _ => d == .inp
  | .lnrel _ => true
  | .start => d == .out
  | .stop => d == .out
  | .wbit _ => d == .out
  | .rbit => d != .released
  | .sack => d == .out
  | .cack => d != .released
  | .sendb _ => d == .out
  | .recvb => d != .released
  | .rdreg _ _ => d == .out
  | .dec16 _ _ => true
  | .cleanup => true

/-- "leaves `dir[SDA]`" (R196), from the direction at entry. -/
def leavesSdaDir (i : Instr) (d : Dir) : Dir :=
  match i with
  | .lnout _ => .out
  | .lnin _ => .inp
  | .lnwr _ _ => .out
  | .lnrd _ => .inp
  | .lnrel _ => .released
  | .start => .out
  | .stop => .out
  | .wbit _ => .out
  | .rbit => .inp
  | .sack => .out
  | .cack => .inp
  | .sendb _ => .out
  | .recvb => .out
  | .rdreg _ _ => .out
  | .dec16 _ _ => d
  | .cleanup => .released

/-- "leaves `latch[SDA]`" (R196), from the latch at entry. -/
def leavesSdaLatch (i : Instr) (v : Level) : Level :=
  match i with
  | .lnout _ => v
  | .lnin _ => v
  | .lnwr _ level => level
  | .lnrd _ => v
  | .lnrel _ => v
  | .start => false
  | .stop => true
  | .wbit bit => bit
  | .rbit => v
  | .sack => true
  | .cack => v
  | .sendb byte => byte.getLsbD 0
  | .recvb => true
  | .rdreg _ _ => true
  | .dec16 _ _ => v
  | .cleanup => v

/-- "leaves `latch[SCL]`" (R196), from the latch at entry. -/
def leavesSclLatch (i : Instr) (v : Level) : Level :=
  match i with
  | .lnout _ => v
  | .lnin _ => v
  | .lnwr _ _ => v
  | .lnrd _ => v
  | .lnrel _ => v
  | .start => false
  | .stop => false
  | .wbit _ => false
  | .rbit => false
  | .sack => false
  | .cack => false
  | .sendb _ => false
  | .recvb => false
  | .rdreg _ _ => false
  | .dec16 _ _ => v
  | .cleanup => v

/-- The bus commands (R101, R120, R130): all but the line commands, DEC16 and CLEANUP. -/
def isBusCommand : Instr → Bool
  | .lnout _ => false
  | .lnin _ => false
  | .lnwr _ _ => false
  | .lnrd _ => false
  | .lnrel _ => false
  | .start => true
  | .stop => true
  | .wbit _ => true
  | .rbit => true
  | .sack => true
  | .cack => true
  | .sendb _ => true
  | .recvb => true
  | .rdreg _ _ => true
  | .dec16 _ _ => false
  | .cleanup => false

/-- No stale data level is clocked (R202): the clock is never raised while the data line drives a level that was not written
since the line was made an output (`stale`), and the line is made an output only while the clock is low (`clock`). -/
def ReacquireSafe : Bool → Level → List Event → Prop
  | _, _, [] => True
  | stale, clock, .sleep :: es => ReacquireSafe stale clock es
  | _, clock, .cfgOut .sda :: es => clock = false ∧ ReacquireSafe true clock es
  | stale, clock, .cfgOut .scl :: es => ReacquireSafe stale clock es
  | _, clock, .cfgIn .sda :: es => ReacquireSafe false clock es
  | stale, clock, .cfgIn .scl :: es => ReacquireSafe stale clock es
  | _, clock, .wr .sda _ :: es => ReacquireSafe false clock es
  | stale, _, .wr .scl v :: es => (v = true → stale = false) ∧ ReacquireSafe stale v es
  | stale, clock, .rd _ _ :: es => ReacquireSafe stale clock es
  | stale, clock, .rel _ :: es => ReacquireSafe stale clock es

/-- The host's next move is not a reset. -/
def State.NoReset (s : State) : Prop := ∀ h, s.host ≠ .reset :: h

/-- Commands performed one after the other by the same block, each on the state the one before left. -/
def execAll : List Instr → State → Host.Outcome State Fault Refusal
  | [], s => .next s
  | i :: is, s =>
    match exec i s with
    | .next t => execAll is t
    | .fault r => .fault r
    | .refused r => .refused r

/-! ### One micro-operation -/

/-- The pin event of a μop, `v` being the level an `RD` returns (R91 to R95). -/
def Uop.pinEvent (u : Uop) (v : Level) : Event :=
  match u with
  | .out l => .cfgOut l
  | .inp l => .cfgIn l
  | .wr l x => .wr l x
  | .rd l _ => .rd l v
  | .rel l => .rel l

/-- What a μop makes of the cell of a line: it writes the direction or the latch of its own line (R91 to R95). -/
def Uop.cellAfter (u : Uop) (l : Line) (c : LineCell) : LineCell :=
  if u.line = l then
    match u with
    | .out _ => ⟨.out, c.latch⟩
    | .inp _ => ⟨.inp, c.latch⟩
    | .wr _ v => ⟨c.dir, v⟩
    | .rd _ _ => c
    | .rel _ => ⟨.released, c.latch⟩
  else c

/-- What a μop makes of `acc`, `nk` and the value to return: an `RD` puts its level where the command wants it, the others
nothing (R27). -/
def Uop.collected (u : Uop) (v : Level) (p : Progress) : Progress :=
  match u with
  | .out _ => p
  | .inp _ => p
  | .wr _ _ => p
  | .rd _ k => k.collect v p
  | .rel _ => p

/-- How many answers of the environment a μop consumes (R55). -/
def Uop.answersUsed : Uop → Nat
  | .out _ => 0
  | .inp _ => 0
  | .wr _ _ => 0
  | .rd _ _ => 1
  | .rel _ => 0

/-- The μops from index `a` up to but not including `b` do nothing: each is a `REL` of a released line (R95; log 5). -/
def VoidBetween (s : State) (us : List Uop) (a b : Nat) : Prop :=
  ∀ k u, a ≤ k → k < b → us[k]? = some u → u.isVoid s = true

/-- The μop at index `n` is there and does something. -/
def NextUop (s : State) (us : List Uop) (n : Nat) : Prop := ∃ u, us[n]? = some u ∧ u.isVoid s = false

/-! ### What the wire shows -/

/-- The line of a command's first μop (R163 "`FLINE <- L`"); for the commands that never fault, the clock. -/
def firstUopLine : Instr → Line
  | .lnout l => l
  | .lnin l => l
  | .lnwr l _ => l
  | .lnrd l => l
  | .lnrel l => l
  | .start => .sda
  | .stop => .sda
  | .wbit _ => .sda
  | .rbit => .sda
  | .sack => .sda
  | .cack => .sda
  | .sendb _ => .sda
  | .recvb => .sda
  | .rdreg _ _ => .sda
  | .dec16 _ _ => .scl
  | .cleanup => .scl

/-- The line commands (R96 to R100). -/
def isLineCommand : Instr → Bool
  | .lnout _ => true
  | .lnin _ => true
  | .lnwr _ _ => true
  | .lnrd _ => true
  | .lnrel _ => true
  | .start => false
  | .stop => false
  | .wbit _ => false
  | .rbit => false
  | .sack => false
  | .cack => false
  | .sendb _ => false
  | .recvb => false
  | .rdreg _ _ => false
  | .dec16 _ _ => false
  | .cleanup => false

/-- The conditions a bus command entered with the clock low puts on the wire (R108, R134). -/
def conditionsOf : Instr → List Condition
  | .lnout _ => []
  | .lnin _ => []
  | .lnwr _ _ => []
  | .lnrd _ => []
  | .lnrel _ => []
  | .start => [.start]
  | .stop => [.stop]
  | .wbit _ => []
  | .rbit => []
  | .sack => []
  | .cack => []
  | .sendb _ => []
  | .recvb => []
  | .rdreg _ _ => [.stop, .start, .start, .stop]
  | .dec16 _ _ => []
  | .cleanup => []

/-- How many clock pulses a bus command makes: one for each bit slot and each condition (R102 to R107, R121, R122, R130). -/
def clockPulses : Instr → Nat
  | .lnout _ => 0
  | .lnin _ => 0
  | .lnwr _ _ => 0
  | .lnrd _ => 0
  | .lnrel _ => 0
  | .start => 1
  | .stop => 1
  | .wbit _ => 1
  | .rbit => 1
  | .sack => 1
  | .cack => 1
  | .sendb _ => 9
  | .recvb => 9
  | .rdreg _ _ => 40
  | .dec16 _ _ => 0
  | .cleanup => 0

/-- `n` clock pulses. -/
def pulses (n : Nat) : List ClockEdge := (List.replicate n [ClockEdge.rising, .falling]).flatten

/-- The bits of a byte as an observer sees them, most significant first (R53). -/
def seenByte (b : Byte) : List Seen := (msbFirst b).map .bit

/-- The level a read returned is the one the outside puts on the line at that event (R23, R55). -/
def Event.readsFrom (e : Event) (outside : Line → Level) : Bool :=
  match e with
  | .sleep => true
  | .cfgOut _ => true
  | .cfgIn _ => true
  | .wr _ _ => true
  | .rd l v => outside l == v
  | .rel _ => true

/-- A slave that keeps the rules of the bus during the events of a trace: a read returns the level it puts on the line, and
between two events it changes the data line only while the clock is low, so that it makes no condition of its own. -/
def slaveKeepsRules (outside : Nat → Line → Level) : Nat → Pads → List Event → Bool
  | _, _, [] => true
  | n, p, e :: es =>
    Event.readsFrom e (outside n) &&
      (!((p.after e).wires (outside n)).scl || outside (n + 1) .sda == outside n .sda) &&
      slaveKeepsRules outside (n + 1) (p.after e) es

end Sys2Proof.Machine
end

