-- ==== Sys2Proof/Certificates/Slice0/Obligations.lean ====
section
/-! DEFINITION. The statements for the provers, from the numbered rules of spec/. -/

open Sys2Proof Sys2Proof.Machine

/-! ### Reset and registers -/

/-- R33, the table: both lines outputs, clock low, data high, `LCTL = 0b001110`, `FSR` 0, `SEQ = Idle`, empty trace. -/
def Obligations.ResetStateIsTheStopEndState : Prop :=
  State.reset.dir .scl = .out ∧ State.reset.dir .sda = .out ∧
  State.reset.latch .scl = false ∧ State.reset.latch .sda = true ∧
  State.reset.lctl = 0b001110#6 ∧ State.reset.fsr = ⟨false, 0, .scl⟩ ∧ State.reset.fsr.pack = 0 ∧
  State.reset.seq = .idle ∧ State.reset.trace = []

/-- R190: at any time, a command in progress or not, reset puts every piece of state of the block at its reset value,
without a response and with the earlier trace events standing (that the answers, the read count and the rest of the script
stay as well is the model's reading, log 8); and nothing else clears `FSR.FAULT` or takes a line out of
`Released` (from a state that meets the invariant: outside it a command in progress could overwrite a pending fault). -/
def Obligations.ResetAloneUnlatches : Prop :=
  (∀ (s : State) (h : List HostMove), s.host = .reset :: h →
    step s = .next { s with
      scl := ⟨.out, false⟩, sda := ⟨.out, true⟩, fsr := ⟨false, 0, .scl⟩, seq := .idle, host := h }) ∧
  (∀ s t : State, s.Inv → s.NoReset → step s = .next t →
    (s.fsr.fault = true → t.fsr = s.fsr) ∧ ∀ l : Line, s.dir l = .released → t.dir l = .released)

/-- R24: the bits of `LCTL`, and that `L_REL = 1, L_OE = 1` never occurs. -/
def Obligations.LctlFieldsGiveTheLines : Prop :=
  ∀ s : State,
    s.lctl.getLsbD 0 = s.latch .scl ∧ s.lctl.getLsbD 1 = s.latch .sda ∧
    (s.lctl.getLsbD 2 = true ↔ s.dir .scl = .out) ∧ (s.lctl.getLsbD 3 = true ↔ s.dir .sda = .out) ∧
    (s.lctl.getLsbD 4 = true ↔ s.dir .scl = .released) ∧ (s.lctl.getLsbD 5 = true ↔ s.dir .sda = .released) ∧
    ¬ (s.lctl.getLsbD 4 = true ∧ s.lctl.getLsbD 2 = true) ∧ ¬ (s.lctl.getLsbD 5 = true ∧ s.lctl.getLsbD 3 = true) ∧
    State.reset.lctl = 0b001110#6

/-- R25 and R75: the fields of `FSR` and of a response word stand at their bits. -/
def Obligations.FsrAndResponseFieldPlaces : Prop :=
  (∀ f : Fsr, f.pack.getLsbD 0 = f.fault ∧ f.pack.extractLsb' 1 4 = f.fcode ∧ f.pack.getLsbD 5 = f.fline.bit) ∧
  (∀ (fcode : BitVec 4) (nack : BitVec 3) (value : BitVec 16),
    (responseWord fcode nack value).extractLsb' 0 16 = value ∧
    (responseWord fcode nack value).extractLsb' 16 3 = nack ∧
    (responseWord fcode nack value).getLsbD 19 = false ∧
    (responseWord fcode nack value).extractLsb' 20 4 = fcode)

/-- R6 and the table of R11: `HALF` is above 0, `T = 2*HALF`, the two pins are distinct, each event is one call, with
`HALF` as the only duration and `pullUp` always true. -/
def Obligations.EventsAreCollaboratorCalls : Prop :=
  0 < Config.half ∧ Config.signalChangeTime = 2 * Config.half ∧ Config.pin .scl ≠ Config.pin .sda ∧
  Event.call .sleep = .sleep Config.half ∧
  ∀ (l : Line) (v : Level),
    Event.call (.cfgOut l) = .configureOutput (Config.pin l) ∧
    Event.call (.cfgIn l) = .configureInput (Config.pin l) true ∧
    Event.call (.wr l v) = .writeLevel (Config.pin l) v ∧
    Event.call (.rd l v) = .readLevel (Config.pin l) v ∧
    Event.call (.rel l) = .release (Config.pin l)

/-! ### Encoding -/

/-- Every well-formed command decodes from its own word, with every operand. -/
def Obligations.DecodeOfEncode : Prop :=
  ∀ i : Instr, i.wellFormed = true → decode (encode i) = .ok i

/-- A legal word is the word of the command it decodes to, and that command is well formed. -/
def Obligations.EncodeOfDecode : Prop :=
  ∀ (w : CommandWord) (i : Instr), decode w = .ok i → encode i = w ∧ i.wellFormed = true

/-- R73: the table, and that a word is the command of a row exactly when `w & mask = match`. -/
def Obligations.WordIsARowsCommandByItsMask : Prop :=
  opcodeMap.map (fun r => (r.mnemonic, r.op, r.pattern, r.mask)) =
    [("LNOUT", 0x01, 0x010000, 0xFFFFFE), ("LNIN", 0x02, 0x020000, 0xFFFFFE), ("LNWR", 0x03, 0x030000, 0xFFFEFE),
     ("LNRD", 0x04, 0x040000, 0xFFFFFE), ("LNREL", 0x05, 0x050000, 0xFFFFFE), ("START", 0x06, 0x060000, 0xFFFFFF),
     ("STOP", 0x07, 0x070000, 0xFFFFFF), ("WBIT", 0x08, 0x080000, 0xFFFFFE), ("RBIT", 0x09, 0x090000, 0xFFFFFF),
     ("SACK", 0x0A, 0x0A0000, 0xFFFFFF), ("CACK", 0x0B, 0x0B0000, 0xFFFFFF), ("SENDB", 0x0C, 0x0C0000, 0xFFFF00),
     ("RECVB", 0x0D, 0x0D0000, 0xFFFFFF), ("RDREG", 0x0E, 0x0E0000, 0xFF8000), ("DEC16", 0x0F, 0x0F0000, 0xFF0000),
     ("CLEANUP", 0x10, 0x100000, 0xFFFFFF)] ∧
  ∀ (w : CommandWord) (r : OpcodeRow), r ∈ opcodeMap →
    ((∃ i, decode w = .ok i ∧ i.row = r) ↔ w &&& r.mask = r.pattern)

/-- R77: every word is exactly one command or illegal; no two rows share a word. -/
def Obligations.EveryWordIsOneCommandOrIllegal : Prop :=
  (∀ w : CommandWord, (∃ i, decode w = .ok i) ↔ ¬ IllegalCommandWord w) ∧
  (∀ (w : CommandWord) (r q : OpcodeRow), r ∈ opcodeMap → q ∈ opcodeMap →
    w &&& r.mask = r.pattern → w &&& q.mask = q.pattern → r = q)

/-- R81, its examples, and one word of every other family of the table. -/
def Obligations.SampleWordsDecode : Prop :=
  decode 0x0E1D08 = .ok (.rdreg 0x1D 0x08) ∧ decode 0x0C00A5 = .ok (.sendb 0xA5) ∧
  decode 0x030101 = .ok (.lnwr .sda true) ∧ decode 0x030000 = .ok (.lnwr .scl false) ∧
  decode 0x080001 = .ok (.wbit true) ∧ decode 0x0F8000 = .ok (.dec16 0x00 0x80) ∧
  decode 0x060000 = .ok .start ∧ decode 0x100000 = .ok .cleanup ∧ decode 0x0D0000 = .ok .recvb ∧
  decode 0x000000 = .error (.reservedOpcode 0) ∧ decode 0x030200 = .error (.reservedOperandBit 3)

/-- R74: the two address bytes. -/
def Obligations.AddressBytes : Prop :=
  (∀ dev : Byte, dev.toNat < 128 →
    writeAddress dev = dev <<< 1 ∧ (writeAddress dev).toNat = 2 * dev.toNat ∧ (writeAddress dev).toNat ≤ 0xFE ∧
    readAddress dev = writeAddress dev ||| 1 ∧ (readAddress dev).toNat = 2 * dev.toNat + 1) ∧
  writeAddress 0x1D = 0x3A ∧ readAddress 0x1D = 0x3B

/-! ### The line commands -/

/-- R91, R96: LNOUT configures its line as output, keeps the latch, and faults only on a released line. -/
def Obligations.LnoutConfiguresOutput : Prop :=
  ∀ (l : Line) (s : State), s.Ready →
    (s.dir l ≠ .released → exec (.lnout l) s = .next { s.setCell l ⟨.out, s.latch l⟩ with
      trace := s.trace ++ [.sleep, .cfgOut l, .sleep], responses := s.responses ++ [0x000000] }) ∧
    (s.dir l = .released → exec (.lnout l) s = .next (s.faulted 3 l))

/-- R92, R97: LNIN configures its line as input, keeps the latch, and faults only on a released line. -/
def Obligations.LninConfiguresInput : Prop :=
  ∀ (l : Line) (s : State), s.Ready →
    (s.dir l ≠ .released → exec (.lnin l) s = .next { s.setCell l ⟨.inp, s.latch l⟩ with
      trace := s.trace ++ [.sleep, .cfgIn l, .sleep], responses := s.responses ++ [0x000000] }) ∧
    (s.dir l = .released → exec (.lnin l) s = .next (s.faulted 3 l))

/-- R93, R98: LNWR writes the latch of an output; on an input it faults with code 1, on a released line with code 3. -/
def Obligations.LnwrWritesAnOutput : Prop :=
  ∀ (l : Line) (v : Level) (s : State), s.Ready →
    (s.dir l = .out → exec (.lnwr l v) s = .next { s.setCell l ⟨.out, v⟩ with
      trace := s.trace ++ [.sleep, .wr l v, .sleep], responses := s.responses ++ [0x000000] }) ∧
    (s.dir l = .inp → exec (.lnwr l v) s = .next (s.faulted 1 l)) ∧
    (s.dir l = .released → exec (.lnwr l v) s = .next (s.faulted 3 l))

/-- R94, R99: LNRD answers the level the environment gives for an input line and changes no line; on an output it faults
with code 2, on a released line with code 3. The level is the next one of the input list, else any (log 3). -/
def Obligations.LnrdReadsAnInput : Prop :=
  ∀ (l : Line) (s : State), s.Ready →
    (s.dir l = .inp → ∃ v : Level, (∀ a rest, s.env = a :: rest → v = a) ∧
      exec (.lnrd l) s = .next { s with
        env := s.env.tail, reads := s.reads + 1, trace := s.trace ++ [.sleep, .rd l v, .sleep],
        responses := s.responses ++ [responseWord 0 0 (levelBits 16 v)] }) ∧
    (s.dir l = .out → exec (.lnrd l) s = .next (s.faulted 2 l)) ∧
    (s.dir l = .released → exec (.lnrd l) s = .next (s.faulted 3 l))

/-- R95, R100: LNREL releases a line once, without a delay and without a fault, in the faulted state too; the latch is
kept, and a second LNREL does nothing. -/
def Obligations.LnrelReleasesOnce : Prop :=
  ∀ (l : Line) (s : State), s.seq = .idle →
    (s.dir l ≠ .released → exec (.lnrel l) s = .next { s.setCell l ⟨.released, s.latch l⟩ with
      trace := s.trace ++ [.rel l], responses := s.responses ++ [0x000000] }) ∧
    (s.dir l = .released → exec (.lnrel l) s = .next { s with responses := s.responses ++ [0x000000] })

/-! ### The signalling primitives -/

/-- R102: START. -/
def Obligations.StartSequence : Prop :=
  ∀ s : State, s.Ready →
    (s.BothOut → exec .start s = .next { s with
      scl := ⟨.out, false⟩, sda := ⟨.out, false⟩,
      trace := s.trace ++ withSleeps [.wr .sda true, .wr .scl true, .wr .sda false, .wr .scl false],
      responses := s.responses ++ [0x000000] }) ∧
    DataWriteFaults .start true s

/-- R103: STOP, with the fourth step. -/
def Obligations.StopSequence : Prop :=
  ∀ s : State, s.Ready →
    (s.BothOut → exec .stop s = .next { s with
      scl := ⟨.out, false⟩, sda := ⟨.out, true⟩,
      trace := s.trace ++ withSleeps [.wr .sda false, .wr .scl true, .wr .sda true, .wr .scl false],
      responses := s.responses ++ [0x000000] }) ∧
    DataWriteFaults .stop false s

/-- R104: WBIT. -/
def Obligations.WbitSequence : Prop :=
  ∀ (b : Level) (s : State), s.Ready →
    (s.BothOut → exec (.wbit b) s = .next { s with
      scl := ⟨.out, false⟩, sda := ⟨.out, b⟩,
      trace := s.trace ++ withSleeps [.wr .sda b, .wr .scl true, .wr .scl false],
      responses := s.responses ++ [0x000000] }) ∧
    DataWriteFaults (.wbit b) b s

/-- R106: SACK. -/
def Obligations.SackSequence : Prop :=
  ∀ s : State, s.Ready →
    (s.BothOut → exec .sack s = .next { s with
      scl := ⟨.out, false⟩, sda := ⟨.out, true⟩,
      trace := s.trace ++ withSleeps [.wr .sda false, .wr .scl true, .wr .scl false, .wr .sda true],
      responses := s.responses ++ [0x000000] }) ∧
    DataWriteFaults .sack false s

/-- R105, R107: RBIT and CACK perform the same sequence, answer the sampled level and leave the data line an input with
its latch kept. The level is the next one of the input list, else any (log 3). -/
def Obligations.RbitAndCackSequence : Prop :=
  ∀ (i : Instr) (s : State), i = .rbit ∨ i = .cack → s.Ready →
    (s.scl.dir = .out → s.sda.dir ≠ .released → ∃ v : Level, (∀ a rest, s.env = a :: rest → v = a) ∧
      exec i s = .next { s with
        scl := ⟨.out, false⟩, sda := ⟨.inp, s.sda.latch⟩, env := s.env.tail, reads := s.reads + 1,
        trace := s.trace ++ withSleeps [.cfgIn .sda, .wr .scl true, .rd .sda v, .wr .scl false],
        responses := s.responses ++ [responseWord 0 0 (levelBits 16 v)] }) ∧
    DataReleaseFaults i 1 s

/-! ### The byte engine and the register read -/

/-- R121: SENDB sends the byte most significant bit first, listens for the acknowledge, re-acquires the line and answers
the AckBit. -/
def Obligations.SendbSequence : Prop :=
  ∀ (b : Byte) (s : State), s.Ready →
    (s.BothOut → ∃ a : Level, (∀ x rest, s.env = x :: rest → a = x) ∧
      exec (.sendb b) s = .next { s with
        scl := ⟨.out, false⟩, sda := ⟨.out, b.getLsbD 0⟩, env := s.env.tail, reads := s.reads + 1,
        trace := s.trace ++ withSleeps (sendbPins b a),
        responses := s.responses ++ [responseWord 0 0 (levelBits 16 a)] }) ∧
    DataWriteFaults (.sendb b) (b.getLsbD 7) s

/-- R122: RECVB samples eight bits most significant first, re-acquires the line, acknowledges and answers the byte. -/
def Obligations.RecvbSequence : Prop :=
  ∀ s : State, s.Ready →
    (s.scl.dir = .out → s.sda.dir ≠ .released →
      ∃ b : Byte, (∀ p rest, s.env = msbFirst p ++ rest → b = p) ∧
      exec .recvb s = .next { s with
        scl := ⟨.out, false⟩, sda := ⟨.out, true⟩, env := s.env.drop 8, reads := s.reads + 8,
        trace := s.trace ++ withSleeps (recvbPins b),
        responses := s.responses ++ [responseWord 0 0 (b.setWidth 16)] }) ∧
    DataReleaseFaults .recvb 2 s

/-- R130, R131, R132: RDREG performs all seven steps whatever is sampled, reports the three AckBits as NACK bits and the
byte as VALUE, and ends in the idle state. -/
def Obligations.RdregSequence : Prop :=
  ∀ (dev reg : Byte) (s : State), s.Ready →
    (s.BothOut → ∃ (a1 a2 a3 : Level) (b : Byte),
      (∀ x1 x2 x3 p rest, s.env = x1 :: x2 :: x3 :: (msbFirst p ++ rest) → a1 = x1 ∧ a2 = x2 ∧ a3 = x3 ∧ b = p) ∧
      exec (.rdreg dev reg) s = .next { s with
        scl := ⟨.out, false⟩, sda := ⟨.out, true⟩, env := s.env.drop 11, reads := s.reads + 11,
        trace := s.trace ++ withSleeps (rdregPins dev reg a1 a2 a3 b),
        responses := s.responses ++
          [responseWord 0 (BitVec.ofBool a3 ++ BitVec.ofBool a2 ++ BitVec.ofBool a1) (b.setWidth 16)] }) ∧
    DataWriteFaults (.rdreg dev reg) false s

/-- R130: RDREG is the in-place composition of the commands its steps name: performed one by one they put the same trace
on the pins, consume the same answers and leave the same lines (they differ only in the responses). -/
def Obligations.RdregIsTheCompositionOfItsSteps : Prop :=
  ∀ (dev reg : Byte) (s : State), s.Ready → s.BothOut →
    ∃ t r : State, exec (.rdreg dev reg) s = .next t ∧
      execAll [.stop, .start, .sendb (writeAddress dev), .sendb reg, .start, .sendb (readAddress dev), .recvb, .stop] s
        = .next r ∧
      r = { t with responses := r.responses }

/-! ### The word decoder and the arithmetic -/

/-- R140: DEC16 answers `{high, low}` in every idle state, the faulted one included, and changes nothing else. -/
def Obligations.Dec16AnswersTheWord : Prop :=
  ∀ (low high : Byte) (s : State), s.seq = .idle →
    exec (.dec16 low high) s = .next { s with responses := s.responses ++ [responseWord 0 0 (high ++ low)] } ∧
    ((high ++ low).toInt = decodeSigned16 low high)

/-- R142: the laws (a) to (e) of DEC16. -/
def Obligations.Dec16Laws : Prop :=
  (∀ low high : Byte,
    decodeSigned16 low high % 65536 = 256 * (high.toNat : Int) + low.toNat ∧
    -32768 ≤ decodeSigned16 low high ∧ decodeSigned16 low high ≤ 32767 ∧
    (decodeSigned16 low high < 0 ↔ 0x80 ≤ high.toNat) ∧
    decodeSigned16 low high = high.toInt * 256 + low.toNat) ∧
  (∀ l h l' h' : Byte, decodeSigned16 l h = decodeSigned16 l' h' → l = l' ∧ h = h') ∧
  (∀ z : Int, -32768 ≤ z → z ≤ 32767 → ∃ low high : Byte, decodeSigned16 low high = z)

/-- R141, its third row: after `j ≤ 8` shifts from 0 the accumulator is the numeral the samples spell, below `2^j`. -/
def Obligations.AccumulatorSpellsTheSamples : Prop :=
  ∀ bits : List Level, bits.length ≤ 8 →
    (bits.foldl shiftIn 0).toNat = bits.foldl (fun n b => 2 * n + b.toNat) 0 ∧
    (bits.foldl shiftIn 0).toNat < 2 ^ bits.length

/-! ### Lifecycle and faults -/

/-- R150: CLEANUP releases the pins still held, clock first, without a delay, in every idle state; a second does nothing. -/
def Obligations.CleanupReleasesBothPins : Prop :=
  ∀ s : State, s.seq = .idle →
    exec .cleanup s = .next { s with
      scl := ⟨.released, s.scl.latch⟩, sda := ⟨.released, s.sda.latch⟩,
      trace := s.trace ++ ((if s.scl.dir = .released then [] else [.rel .scl]) ++
        (if s.sda.dir = .released then [] else [.rel .sda])),
      responses := s.responses ++ [0x000000] }

/-- R151: after cleanup every command that uses a line faults with code 3 at its first μop, whose line `FLINE` names (R163),
and emits nothing. -/
def Obligations.UseAfterCleanupFaults : Prop :=
  ∀ (i : Instr) (s : State), s.Ready → s.scl.dir = .released → s.sda.dir = .released → performedInFault i = false →
    exec i s = .next { s with fsr := ⟨true, 3, firstUopLine i⟩, responses := s.responses ++ [0x300000] }

/-- R76: an illegal word met by an idle block performs nothing; it raises `IllegalCommand`, or, when a fault is pending, is
answered with the pending code; the all-zero word is illegal. -/
def Obligations.IllegalWordRaisesTheFault : Prop :=
  (∀ (s : State) (w : CommandWord) (h : List HostMove), s.seq = .idle → s.host = .issue w :: h → IllegalCommandWord w →
    (s.fsr.fault = false → step s = .next { s with
      host := h, fsr := ⟨true, 4, .scl⟩, responses := s.responses ++ [0x400000] }) ∧
    (s.fsr.fault = true → step s = .next { s with
      host := h, responses := s.responses ++ [responseWord s.fsr.fcode 0 0] })) ∧
  IllegalCommandWord 0x000000

/-- R165: in the faulted state CLEANUP, LNREL and DEC16 are performed as usual, and every other word, legal or not, is
answered with the pending code and has no other effect. -/
def Obligations.FaultedStateAnswersThePendingCode : Prop :=
  ∀ (s : State) (w : CommandWord) (h : List HostMove), s.seq = .idle → s.fsr.fault = true → s.host = .issue w :: h →
    (∀ i, decode w = .ok i → performedInFault i = true →
      ∃ t : State, exec i { s with host := h, fsr := ⟨false, 0, .scl⟩ } = .next t ∧ step s = .next { t with fsr := s.fsr }) ∧
    ((∀ i, decode w = .ok i → performedInFault i = false) →
      step s = .next { s with host := h, responses := s.responses ++ [responseWord s.fsr.fcode 0 0] })

/-- R196: for each command that does not address the clock line alone, with the clock an output: it ends without a fault
exactly when the data line has the direction it needs, and then leaves the lines as the table says. -/
def Obligations.DirectionDiscipline : Prop :=
  ∀ (i : Instr) (s : State), s.Ready → s.scl.dir = .out → addressesClockOnly i = false →
    ∃ t : State, exec i s = .next t ∧ (t.fsr.fault = false ↔ needsSdaDir i s.sda.dir = true) ∧
      (needsSdaDir i s.sda.dir = true →
        t.sda = ⟨leavesSdaDir i s.sda.dir, leavesSdaLatch i s.sda.latch⟩ ∧
        t.scl.latch = leavesSclLatch i s.scl.latch ∧
        (t.scl.dir = .out ∨ (i = .cleanup ∧ t.scl.dir = .released)))

/-! ### The machine as a whole -/

/-- A step from `Idle` with a legal word offered is `exec` of the command it decodes to, the host's move taken. -/
def Obligations.StepRunsTheDecodedCommand : Prop :=
  ∀ (s : State) (w : CommandWord) (h : List HostMove) (i : Instr),
    s.seq = .idle → s.host = .issue w :: h → decode w = .ok i → step s = exec i { s with host := h }

/-- R60, R78: an idle block whose host makes no move, or lets a step pass, does nothing. -/
def Obligations.IdleBlockDoesNothingByItself : Prop :=
  ∀ s : State, s.seq = .idle →
    (s.host = [] → step s = .next s) ∧ (∀ h, s.host = .wait :: h → step s = .next { s with host := h })

/-- R70: each accepted word, legal or not, is answered by exactly one response, and then the block is idle again. -/
def Obligations.OneResponsePerWord : Prop :=
  ∀ (s : State) (w : CommandWord) (h : List HostMove), s.seq = .idle → s.host = .issue w :: h →
    ∃ (t : State) (r : ResponseWord), step s = .next t ∧ t.seq = .idle ∧ t.host = h ∧ t.responses = s.responses ++ [r]

/-- No state stops the machine: every step answers a next state (R133, R165, R168). That holds in the two busy states no run
reaches too, whose next state is the model's choice (log 14). -/
def Obligations.EveryStepGoesOn : Prop := ∀ s : State, ∃ t : State, step s = .next t

/-- R78: while a command is in progress a word the host offers is not transferred: it stays with the host and changes
nothing of what the step does; and a meaning asked to accept a command there refuses it by name, which is the model's own
form of the spec's refusal (log 7). -/
def Obligations.BusyBlockTakesNoWord : Prop :=
  (∀ (s : State) (p : Progress) (w : CommandWord) (h : List HostMove), s.seq = .busy p →
    s.host = .issue w :: h ∨ s.host = .issueStepped w :: h →
    ∃ t : State, step { s with host := [] } = .next t ∧ step s = .next { t with host := s.host }) ∧
  (∀ (i : Instr) (s : State) (p : Progress), s.seq = .busy p → exec i s = .refused .channelBusy)

/-- R27: acceptance in the μop-by-μop reading. A legal word that is to be performed puts `SEQ` at `Busy` with that word,
`acc` and `nk` 0 (the value to return 0, log 4), at its first μop that does anything (log 5), and nothing else happens; with
no such μop the command responds at once. Any other word is answered at once, as in the whole-command reading. -/
def Obligations.AcceptanceStopsBeforeTheFirstUop : Prop :=
  ∀ (s : State) (w : CommandWord) (h : List HostMove), s.seq = .idle → s.host = .issueStepped w :: h →
    (∀ i, decode w = .ok i → s.fsr.fault = false ∨ performedInFault i = true → ∃ t : State, step s = .next t ∧
      t = { s with host := h, seq := t.seq, responses := t.responses } ∧
      ((∃ n, n < 144 ∧ t.seq = .busy ⟨w, BitVec.ofNat 8 n, 0, 0, false⟩ ∧ t.responses = s.responses ∧
          VoidBetween s (commandOf i).uops 0 n ∧ NextUop s (commandOf i).uops n) ∨
        (t.seq = .idle ∧ VoidBetween s (commandOf i).uops 0 (commandOf i).uops.length ∧
          ∃ r, t.responses = s.responses ++ [r]))) ∧
    ((∀ i, decode w = .ok i → s.fsr.fault = true ∧ performedInFault i = false) →
      step s = step { s with host := .issue w :: h })

/-- R27, R163: one step of a command in progress is one μop, the one at index `upc`. If it violates its precondition the
fault is raised with its line and nothing else changes. Otherwise its events and no other are emitted, its line is written,
an `RD` consumes one answer and puts it where the command wants it, and `upc` goes on by one, past the `REL`s of lines
already released (log 5), or, with nothing left, exactly one response is sent and `SEQ` is `Idle`. The level read is the
next one of the input list, else any (log 3); a `wait` of the host is taken meanwhile (log 2). -/
def Obligations.OneStepIsOneMicroOperation : Prop :=
  ∀ (s : State) (p : Progress), s.Inv → s.NoReset → s.seq = .busy p →
    ∃ (i : Instr) (u : Uop) (t : State), decode p.cmd = .ok i ∧ (commandOf i).uops[p.upc.toNat]? = some u ∧
      step s = .next t ∧ t.host = (if s.host.head? = some .wait then s.host.tail else s.host) ∧
      (∀ code, u.violation s = some code → t = { s with
        fsr := ⟨true, code.number, u.line⟩, seq := .idle, host := t.host,
        responses := s.responses ++ [responseWord code.number 0 0] }) ∧
      (u.violation s = none → ∃ v : Level, (∀ a rest, s.env = a :: rest → v = a) ∧
        t.trace = s.trace ++ (if u.isVoid s then [] else Event.bracketed (u.pinEvent v)) ∧
        (∀ l, t.cell l = u.cellAfter l (s.cell l)) ∧ t.fsr = s.fsr ∧
        t.env = s.env.drop u.answersUsed ∧ t.reads = s.reads + u.answersUsed ∧
        ((∃ n, p.upc.toNat < n ∧ n < 144 ∧
            t.seq = .busy { u.collected v p with upc := BitVec.ofNat 8 n } ∧ t.responses = s.responses ∧
            VoidBetween t (commandOf i).uops (p.upc.toNat + 1) n ∧ NextUop t (commandOf i).uops n) ∨
          (t.seq = .idle ∧ VoidBetween t (commandOf i).uops (p.upc.toNat + 1) (commandOf i).uops.length ∧
            t.responses = s.responses ++ [responseWord 0 ((commandOf i).answer (u.collected v p)).nack
              ((commandOf i).answer (u.collected v p)).value])))

/-- R28: a word performed μop by μop ends in the same state, with the same trace and response, as the one step that
performs it whole. -/
def Obligations.SteppedCommandEqualsWholeCommand : Prop :=
  ∀ (s : State) (w : CommandWord) (n : Nat), s.seq = .idle → 144 ≤ n →
    Sys2Proof.core.run (n + 1) { s with host := [.issueStepped w] } = step { s with host := [.issue w] }

/-- R34, with U21 for responses: the invariant holds at reset. -/
def Obligations.ResetMeetsTheInvariant : Prop := State.reset.Inv

/-- R34, with U21 for responses: every step keeps the invariant: `FSR` holds a raisable code exactly when faulted, a
command in progress is legal and stands before one of its μops, every response has bit 19 clear and a code 0 to 4. -/
def Obligations.EveryStepKeepsTheInvariant : Prop :=
  ∀ s t : State, s.Inv → step s = .next t → t.Inv

/-- R133: no sampled level selects, skips or repeats a μop: with other answers from the environment a command emits the
same events but for the levels read, and leaves the same lines, fault status and sequencer. The answers varied are the list
and the read count the model keeps for them (log 3). -/
def Obligations.SampledLevelsSteerNothing : Prop :=
  ∀ (i : Instr) (s : State) (e : List Level) (n : Nat), s.seq = .idle →
    ∃ t u : State, exec i s = .next t ∧ exec i { s with env := e, reads := n } = .next u ∧
      t.trace.map Event.blind = u.trace.map Event.blind ∧
      t.scl = u.scl ∧ t.sda = u.sda ∧ t.fsr = u.fsr ∧ t.seq = u.seq ∧ t.host = u.host ∧
      t.responses.length = u.responses.length

/-- R203: the events of every step are pin events each between two sleeps, and bare releases. -/
def Obligations.SleepsBracketEveryPinEvent : Prop :=
  ∀ s t : State, step s = .next t → ∃ pins : List Event, t.trace = s.trace ++ withSleeps pins

/-- R204: a command that does not fault makes two sleep calls for each delayed μop of its row. -/
def Obligations.SleepCallsPerCommand : Prop :=
  ∀ (i : Instr) (s t : State), s.Ready → exec i s = .next t → t.fsr.fault = false →
    sleepCalls t.trace = sleepCalls s.trace + 2 * delayedUops i

/-! ### What an observer sees -/

/-- R173: the trace and the pad signals carry the same information: the events a step emits, applied to the pads before
it, give the pads after it. R23: the wire level of the state is the wire level of its pads: the latch while the block
drives the line, else what is outside puts there. -/
def Obligations.PadsFollowTheTrace : Prop :=
  (∀ s t : State, s.NoReset → step s = .next t →
    ∃ es : List Event, t.trace = s.trace ++ es ∧ t.pads = es.foldl Pads.after s.pads) ∧
  (∀ (s : State) (l : Line) (v : Level),
    s.wire l v = (s.pads.get l).wire v ∧ s.wire l v = if s.dir l = .out then s.latch l else v)

/-- R108: entered with the clock low and with the data line as R101, R196 ask, each bus command puts on the wire the
conditions of its row and no other (START one START, STOP one STOP, RDREG those of R134, the other six none), and raises
and lowers the clock once for each of its slots; whatever the outside puts on the lines. The outside's level is held during
each event, and a condition the outside itself makes between two events is not the block's: that is the model's choice
(log 13). -/
def Obligations.ConditionsOfThePrimitives : Prop :=
  ∀ (i : Instr) (s t : State) (outside : Nat → Line → Level) (es : List Event),
    isBusCommand i = true → s.Ready → s.scl = ⟨.out, false⟩ → needsSdaDir i s.sda.dir = true →
    exec i s = .next t → t.trace = s.trace ++ es →
    conditionsSeen outside 0 s.pads es = conditionsOf i ∧ edgesObserved outside s.pads es = pulses (clockPulses i)

/-- R108, R23: with the outside's levels held, what a line command makes an observer see is the condition, and the clock
edge, between the wires before it and the wires after it: also the edge or the condition that a change of direction makes,
and nothing when the command faults. That the outside holds its levels is an assumption of the statement (log 13). -/
def Obligations.LineCommandsOnTheWire : Prop :=
  ∀ (i : Instr) (s : State) (o : Line → Level), isLineCommand i = true → s.seq = .idle →
    ∃ (t : State) (es : List Event), exec i s = .next t ∧ t.trace = s.trace ++ es ∧
      observed (fun _ => o) s.pads es = (conditionBetween (s.wires o) (t.wires o)).toList.map .condition ∧
      edgesObserved (fun _ => o) s.pads es = (clockEdgeBetween (s.wires o) (t.wires o)).toList

/-- R108 with R102 to R107, R121 to R123: what an observer sees of each bus primitive entered with the clock low, beside a
slave that keeps the rules of the bus: the condition, or the data bits, most significant first, the acknowledge slot's among
them, the level a listening slot shows being the one the command answers. A pulse in which a condition falls has no bit
(log 17); the outside's level is held during each event (log 13). -/
def Obligations.BitsAndConditionsSeen : Prop :=
  ∀ (i : Instr) (s t : State) (outside : Nat → Line → Level) (es : List Event),
    s.Ready → s.scl = ⟨.out, false⟩ → needsSdaDir i s.sda.dir = true →
    exec i s = .next t → t.trace = s.trace ++ es → slaveKeepsRules outside 0 s.pads es = true →
    (i = .start → observed outside s.pads es = [.condition .start]) ∧
    (i = .stop → observed outside s.pads es = [.condition .stop]) ∧
    (∀ b, i = .wbit b → observed outside s.pads es = [.bit b]) ∧
    (i = .sack → observed outside s.pads es = [.bit false]) ∧
    (i = .rbit ∨ i = .cack → ∃ v : Level, t.responses = s.responses ++ [responseWord 0 0 (levelBits 16 v)] ∧
      observed outside s.pads es = [.bit v]) ∧
    (∀ b, i = .sendb b → ∃ a : Level, t.responses = s.responses ++ [responseWord 0 0 (levelBits 16 a)] ∧
      observed outside s.pads es = seenByte b ++ [.bit a]) ∧
    (i = .recvb → ∃ b : Byte, t.responses = s.responses ++ [responseWord 0 0 (b.setWidth 16)] ∧
      observed outside s.pads es = seenByte b ++ [.bit false])

/-- R123: (a) the first eight samples of a SENDB spell its byte, (b) RECVB answers the pattern the environment presents,
(c) the ninth slot of a SENDB is only listened to and in the ninth slot of a RECVB the block drives low. -/
def Obligations.ObserverRecoversTheByte : Prop :=
  (∀ (b : Byte) (s : State), s.Ready → s.BothOut → ∃ (t : State) (es : List Event),
    exec (.sendb b) s = .next t ∧ t.trace = s.trace ++ es ∧
    risingSamples s.pads es = (msbFirst b).map some ++ [none] ∧ byteOfBits (msbFirst b) = b) ∧
  (∀ (p : Byte) (rest : List Level) (s : State), s.Ready → s.scl.dir = .out → s.sda.dir ≠ .released →
    s.env = msbFirst p ++ rest → ∃ (t : State) (es : List Event),
    exec .recvb s = .next t ∧ t.trace = s.trace ++ es ∧
    t.responses = s.responses ++ [responseWord 0 0 (p.setWidth 16)] ∧
    risingSamples s.pads es = List.replicate 8 none ++ [some false])

/-- R202: no bus command clocks a data level that was not written since the data line was made an output, even if it is
entered with such a level on the line, and each makes the data line an output only while the clock is low. -/
def Obligations.ReacquiredLevelIsNeverClocked : Prop :=
  ∀ (i : Instr) (s t : State) (es : List Event), isBusCommand i = true → s.Ready → exec i s = .next t →
    t.trace = s.trace ++ es → ReacquireSafe true s.scl.latch es

/-- R134: what the wire shows during a RDREG entered from the idle state: one STOP, one START, one repeated START, one STOP
and no other condition of the block's, whatever the outside puts on the lines (its level held during each event, a condition
it makes itself between two events not counted: the model's choice, log 13); at the 40 rising clocks the two opening bits, the three bytes each with a slot in which the block
listens, eight data slots in which it listens, its acknowledge, and the closing STOP's. -/
def Obligations.WireDuringRdreg : Prop :=
  ∀ (dev reg : Byte) (s : State) (outside : Nat → Line → Level), s.Ready →
    s.scl = ⟨.out, false⟩ → s.sda = ⟨.out, true⟩ →
    ∃ (t : State) (es : List Event), exec (.rdreg dev reg) s = .next t ∧ t.trace = s.trace ++ es ∧
      conditionsSeen outside 0 s.pads es = [.stop, .start, .start, .stop] ∧
      risingSamples s.pads es =
        [some false, some true] ++ (msbFirst (writeAddress dev)).map some ++ [none] ++
        (msbFirst reg).map some ++ [none] ++ [some true] ++ (msbFirst (readAddress dev)).map some ++ [none] ++
        List.replicate 8 none ++ [some false] ++ [some false]

/-- R134, its last line: `P S wa a1 reg a2 Sr ra a3 data A P` is all an observer sees of a RDREG entered from the idle state
beside a slave that keeps the rules of the bus, the acknowledges and the data being those the response reports. A pulse in
which a condition falls has no bit (log 17); the outside's level is held during each event (log 13). -/
def Obligations.RdregInTheUsualShorthand : Prop :=
  ∀ (dev reg : Byte) (s t : State) (outside : Nat → Line → Level) (es : List Event), s.Ready →
    s.scl = ⟨.out, false⟩ → s.sda = ⟨.out, true⟩ → exec (.rdreg dev reg) s = .next t → t.trace = s.trace ++ es →
    slaveKeepsRules outside 0 s.pads es = true →
    ∃ (a1 a2 a3 : Level) (data : Byte),
      t.responses = s.responses ++
        [responseWord 0 (BitVec.ofBool a3 ++ BitVec.ofBool a2 ++ BitVec.ofBool a1) (data.setWidth 16)] ∧
      observed outside s.pads es =
        [.condition .stop, .condition .start] ++ seenByte (writeAddress dev) ++ [.bit a1] ++ seenByte reg ++ [.bit a2] ++
        [.condition .start] ++ seenByte (readAddress dev) ++ [.bit a3] ++ seenByte data ++ [.bit false] ++
        [.condition .stop]

/-- R190, R191, R173: a reset emits no event and sends no response, and takes the pads and the wires to the reset state
directly: both pads claimed and driven, without pull-up, clock low, data high, whatever the outside does. What the wires show
at the instant of the reset is any value (U19; its form is the model's, log 18): from every state either condition may
appear, or nothing. -/
def Obligations.ResetAtThePins : Prop :=
  ∀ (s : State) (h : List HostMove), s.host = .reset :: h →
    ∃ t : State, step s = .next t ∧ t.trace = s.trace ∧ t.responses = s.responses ∧
      t.pads = ⟨⟨false, true, false, true⟩, ⟨true, true, false, true⟩⟩ ∧ (∀ o, t.wires o = ⟨false, true⟩) ∧
      (∀ flicker, stepMoments flicker s t = [.reset flicker]) ∧
      ∀ outside : Nat → Line → Level,
        (∀ c : Condition, ∃ flicker, observedOver outside s.pads (stepMoments flicker s t) = [.condition c]) ∧
        (∃ flicker, observedOver outside s.pads (stepMoments flicker s t) = [])

/-- R173, R191: over every run, resets among its steps, the pads are those the moments of the run make of the pads before it:
what an observer is told of (events and resets) is all that moves a pad. The levels shown at a reset's instant are any
(U19, log 18) and move none. -/
def Obligations.PadsFollowEveryRun : Prop :=
  ∀ (k : Nat) (s t : State) (flicker : Nat → List WireState),
    Sys2Proof.core.run k s = .next t → t.pads = (runMoments flicker k s).foldl Pads.afterMoment s.pads
end

