-- ==== Sys2Proof/Laws/Decode.lean ====
section
/-! SUPPORT. The fields of a word and of an encoded command (spec/30_encoding.md R70, R71). -/

namespace Sys2Proof

/-- The opcode of an encoded command stands in bits 23:16. -/
theorem opField_encode (i : Instr) : opField (encode i) = i.opcode := by
  ext j hj
  simp only [opField, encode, BitVec.getElem_extractLsb', BitVec.getLsbD_or, BitVec.getLsbD_shiftLeft,
    BitVec.getLsbD_setWidth]
  interval_cases j <;> simp

/-- The operand field of an encoded command stands in bits 15:0. -/
theorem argField_encode (i : Instr) : argField (encode i) = i.operandField := by
  ext j hj
  simp only [argField, encode, BitVec.getElem_extractLsb', BitVec.getLsbD_or, BitVec.getLsbD_shiftLeft,
    BitVec.getLsbD_setWidth]
  interval_cases j <;> simp

/-- A word is its two fields (R70). -/
theorem word_eq_fields (w : CommandWord) : ((opField w).setWidth 24 <<< 16) ||| (argField w).setWidth 24 = w := by
  ext j hj
  simp only [opField, argField, BitVec.getElem_or, BitVec.getElem_shiftLeft, BitVec.getElem_setWidth,
    BitVec.getLsbD_extractLsb']
  interval_cases j <;> simp

/-- Two words with the same fields are the same word. -/
theorem word_ext_fields {w x : CommandWord} (ho : opField w = opField x) (ha : argField w = argField x) : w = x := by
  rw [← word_eq_fields w, ho, ha, word_eq_fields]

/-- What decoding needs and gives (R81). -/
theorem decode_ok_iff {w : CommandWord} {i : Instr} :
    decode w = .ok i ↔ commandOfFields (opField w) (argField w) = some i ∧ w &&& i.row.mask = i.row.pattern := by
  unfold decode
  cases h : commandOfFields (opField w) (argField w) with
  | none => simp
  | some j =>
    by_cases hm : w &&& j.row.mask = j.row.pattern
    · simp only [hm, if_true, Except.ok.injEq, Option.some.injEq]
      exact ⟨fun e => e ▸ ⟨rfl, hm⟩, fun e => e.1⟩
    · simp only [hm, if_false, Option.some.injEq, reduceCtorEq, false_iff]
      rintro ⟨rfl, h'⟩
      exact hm h'

end Sys2Proof
end

