-- ==== Sys2Proof/Laws/State.lean ====
section
/-! SUPPORT. The fields of a state after each update, so that no proof unfolds a record update. -/

namespace Sys2Proof.Machine

variable (s : State)

@[simp] theorem setCell_cell (l : Line) (c : LineCell) : (s.setCell l c).cell l = c := by cases l <;> rfl
@[simp] theorem setCell_cell_of_ne {l k : Line} (c : LineCell) (h : k ≠ l) : (s.setCell l c).cell k = s.cell k := by
  cases l <;> cases k <;> first | rfl | exact absurd rfl h
@[simp] theorem setCell_fsr (l : Line) (c : LineCell) : (s.setCell l c).fsr = s.fsr := by cases l <;> rfl
@[simp] theorem setCell_seq (l : Line) (c : LineCell) : (s.setCell l c).seq = s.seq := by cases l <;> rfl
@[simp] theorem setCell_host (l : Line) (c : LineCell) : (s.setCell l c).host = s.host := by cases l <;> rfl
@[simp] theorem setCell_env (l : Line) (c : LineCell) : (s.setCell l c).env = s.env := by cases l <;> rfl
@[simp] theorem setCell_reads (l : Line) (c : LineCell) : (s.setCell l c).reads = s.reads := by cases l <;> rfl
@[simp] theorem setCell_trace (l : Line) (c : LineCell) : (s.setCell l c).trace = s.trace := by cases l <;> rfl
@[simp] theorem setCell_responses (l : Line) (c : LineCell) : (s.setCell l c).responses = s.responses := by
  cases l <;> rfl

@[simp] theorem emit_scl (e : Event) : (s.emit e).scl = s.scl := rfl
@[simp] theorem emit_sda (e : Event) : (s.emit e).sda = s.sda := rfl
@[simp] theorem emit_fsr (e : Event) : (s.emit e).fsr = s.fsr := rfl
@[simp] theorem emit_seq (e : Event) : (s.emit e).seq = s.seq := rfl
@[simp] theorem emit_host (e : Event) : (s.emit e).host = s.host := rfl
@[simp] theorem emit_env (e : Event) : (s.emit e).env = s.env := rfl
@[simp] theorem emit_reads (e : Event) : (s.emit e).reads = s.reads := rfl
@[simp] theorem emit_trace (e : Event) : (s.emit e).trace = s.trace ++ [e] := rfl
@[simp] theorem emit_responses (e : Event) : (s.emit e).responses = s.responses := rfl
@[simp] theorem emit_cell (e : Event) (l : Line) : (s.emit e).cell l = s.cell l := by cases l <;> rfl
@[simp] theorem emit_dir (e : Event) (l : Line) : (s.emit e).dir l = s.dir l := by cases l <;> rfl
@[simp] theorem emit_latch (e : Event) (l : Line) : (s.emit e).latch l = s.latch l := by cases l <;> rfl

@[simp] theorem respond_scl (c k v) : (s.respond c k v).scl = s.scl := rfl
@[simp] theorem respond_sda (c k v) : (s.respond c k v).sda = s.sda := rfl
@[simp] theorem respond_fsr (c k v) : (s.respond c k v).fsr = s.fsr := rfl
@[simp] theorem respond_seq (c k v) : (s.respond c k v).seq = s.seq := rfl
@[simp] theorem respond_host (c k v) : (s.respond c k v).host = s.host := rfl
@[simp] theorem respond_env (c k v) : (s.respond c k v).env = s.env := rfl
@[simp] theorem respond_reads (c k v) : (s.respond c k v).reads = s.reads := rfl
@[simp] theorem respond_trace (c k v) : (s.respond c k v).trace = s.trace := rfl
@[simp] theorem respond_responses (c k v) :
    (s.respond c k v).responses = s.responses ++ [responseWord c k v] := rfl

@[simp] theorem takeAnswer_env : s.takeAnswer.env = s.env.tail := rfl
@[simp] theorem takeAnswer_reads : s.takeAnswer.reads = s.reads + 1 := rfl
@[simp] theorem takeAnswer_scl : s.takeAnswer.scl = s.scl := rfl
@[simp] theorem takeAnswer_sda : s.takeAnswer.sda = s.sda := rfl
@[simp] theorem takeAnswer_fsr : s.takeAnswer.fsr = s.fsr := rfl
@[simp] theorem takeAnswer_seq : s.takeAnswer.seq = s.seq := rfl
@[simp] theorem takeAnswer_host : s.takeAnswer.host = s.host := rfl
@[simp] theorem takeAnswer_trace : s.takeAnswer.trace = s.trace := rfl
@[simp] theorem takeAnswer_responses : s.takeAnswer.responses = s.responses := rfl

/-- A change of progress touches `SEQ` alone. -/
theorem mapProgress_eq (f : Progress → Progress) : ∃ q, s.mapProgress f = { s with seq := q } := by
  unfold State.mapProgress
  cases h : s.seq with
  | idle => exact ⟨.idle, by simp [← h]⟩
  | busy p => exact ⟨.busy (f p), rfl⟩

@[simp] theorem mapProgress_scl (f) : (s.mapProgress f).scl = s.scl := by
  obtain ⟨q, h⟩ := mapProgress_eq s f; rw [h]
@[simp] theorem mapProgress_sda (f) : (s.mapProgress f).sda = s.sda := by
  obtain ⟨q, h⟩ := mapProgress_eq s f; rw [h]
@[simp] theorem mapProgress_fsr (f) : (s.mapProgress f).fsr = s.fsr := by
  obtain ⟨q, h⟩ := mapProgress_eq s f; rw [h]
@[simp] theorem mapProgress_host (f) : (s.mapProgress f).host = s.host := by
  obtain ⟨q, h⟩ := mapProgress_eq s f; rw [h]
@[simp] theorem mapProgress_env (f) : (s.mapProgress f).env = s.env := by
  obtain ⟨q, h⟩ := mapProgress_eq s f; rw [h]
@[simp] theorem mapProgress_reads (f) : (s.mapProgress f).reads = s.reads := by
  obtain ⟨q, h⟩ := mapProgress_eq s f; rw [h]
@[simp] theorem mapProgress_trace (f) : (s.mapProgress f).trace = s.trace := by
  obtain ⟨q, h⟩ := mapProgress_eq s f; rw [h]
@[simp] theorem mapProgress_responses (f) : (s.mapProgress f).responses = s.responses := by
  obtain ⟨q, h⟩ := mapProgress_eq s f; rw [h]
theorem mapProgress_seq_busy (f) {p : Progress} (h : s.seq = .busy p) : (s.mapProgress f).seq = .busy (f p) := by
  simp [State.mapProgress, h]

@[simp] theorem begin_seq (w : CommandWord) : (s.begin w).seq = .busy ⟨w, 0, 0, 0, false⟩ := rfl
@[simp] theorem begin_scl (w : CommandWord) : (s.begin w).scl = s.scl := rfl
@[simp] theorem begin_sda (w : CommandWord) : (s.begin w).sda = s.sda := rfl
@[simp] theorem begin_fsr (w : CommandWord) : (s.begin w).fsr = s.fsr := rfl
@[simp] theorem begin_host (w : CommandWord) : (s.begin w).host = s.host := rfl
@[simp] theorem begin_env (w : CommandWord) : (s.begin w).env = s.env := rfl
@[simp] theorem begin_reads (w : CommandWord) : (s.begin w).reads = s.reads := rfl
@[simp] theorem begin_trace (w : CommandWord) : (s.begin w).trace = s.trace := rfl
@[simp] theorem begin_responses (w : CommandWord) : (s.begin w).responses = s.responses := rfl

@[simp] theorem resetBlock_trace : s.resetBlock.trace = s.trace := rfl
@[simp] theorem resetBlock_responses : s.resetBlock.responses = s.responses := rfl
@[simp] theorem resetBlock_host : s.resetBlock.host = s.host := rfl
@[simp] theorem resetBlock_env : s.resetBlock.env = s.env := rfl
@[simp] theorem resetBlock_reads : s.resetBlock.reads = s.reads := rfl
@[simp] theorem resetBlock_fsr : s.resetBlock.fsr = resetFsr := rfl
@[simp] theorem resetBlock_seq : s.resetBlock.seq = .idle := rfl
@[simp] theorem resetBlock_scl : s.resetBlock.scl = resetScl := rfl
@[simp] theorem resetBlock_sda : s.resetBlock.sda = resetSda := rfl

end Sys2Proof.Machine
end

