-- ==== Sys2Proof/Laws/Ops.lean ====
section
/-! SUPPORT. What the shared operations do: each μop on a state written out, runs of μops, the byte engine's sequences. -/

namespace Sys2Proof.Machine

/-! ### Runs -/

/-- What follows a run: nothing after a violation. -/
def Run.andThen (r : Run) (us : List Uop) : Run :=
  match r with
  | .done s => runUops us s
  | .violated c l s => .violated c l s

@[simp] theorem done_andThen (s : State) (us : List Uop) : (Run.done s).andThen us = runUops us s := rfl

@[simp] theorem violated_andThen (c : FaultCode) (l : Line) (s : State) (us : List Uop) :
    (Run.violated c l s).andThen us = .violated c l s := rfl

/-- A sequence is performed in place: its parts run one after the other (R10, R133). -/
theorem runUops_append (us vs : List Uop) (s : State) : runUops (us ++ vs) s = (runUops us s).andThen vs := by
  induction us generalizing s with
  | nil => rfl
  | cons u us ih =>
    simp only [List.cons_append, runUops]
    cases s.performUop u with
    | error c => rfl
    | ok t => exact ih t

/-- A μop is performed exactly when it violates nothing. -/
theorem performUop_ok_iff {u : Uop} {s t : State} :
    s.performUop u = .ok t ↔ u.violation s = none ∧ t = (u.effect s).advance := by
  unfold State.performUop
  cases u.violation s <;> simp [eq_comm]

/-- A violating μop is not performed at all (R90, R163). -/
theorem performUop_error_iff {u : Uop} {s : State} {c : FaultCode} :
    s.performUop u = .error c ↔ u.violation s = some c := by
  unfold State.performUop
  cases u.violation s <;> simp

/-- What a μop raises is one of the codes 1 to 3 (R161). -/
theorem violation_code {u : Uop} {s : State} {c : FaultCode} (h : u.violation s = some c) :
    c = .writeOnNonOutput ∨ c = .readOnNonInput ∨ c = .useAfterCleanup := by
  cases u with
  | out l => simp only [Uop.violation] at h; split at h <;> simp_all
  | inp l => simp only [Uop.violation] at h; split at h <;> simp_all
  | wr l v => simp only [Uop.violation] at h; split at h <;> simp_all
  | rd l k => simp only [Uop.violation] at h; split at h <;> simp_all
  | rel l => simp [Uop.violation] at h

/-! ### Each μop on a state written out -/

section
variable (c d : LineCell) (x : Level) (f : Fsr) (p : Progress) (h : List HostMove) (e : List Level) (n : Nat)
  (t : List Event) (r : List ResponseWord) (us : List Uop)

/-- `WR(SDA, v)` on an output (R93). -/
theorem run_wr_sda (v : Level) :
    runUops (.wr .sda v :: us) ⟨c, ⟨.out, x⟩, f, .busy p, h, e, n, t, r⟩ =
      runUops us ⟨c, ⟨.out, v⟩, f, .busy { p with upc := p.upc + 1 }, h, e, n, t ++ [.sleep, .wr .sda v, .sleep], r⟩ := by
  simp [runUops, State.performUop, Uop.violation, State.dir, State.cell, Uop.effect, State.delayed, State.setLatch,
    State.setCell, State.emit, State.advance, State.mapProgress]

/-- `WR(SCL, v)` on an output (R93). -/
theorem run_wr_scl (v : Level) :
    runUops (.wr .scl v :: us) ⟨⟨.out, x⟩, d, f, .busy p, h, e, n, t, r⟩ =
      runUops us ⟨⟨.out, v⟩, d, f, .busy { p with upc := p.upc + 1 }, h, e, n, t ++ [.sleep, .wr .scl v, .sleep], r⟩ := by
  simp [runUops, State.performUop, Uop.violation, State.dir, State.cell, Uop.effect, State.delayed, State.setLatch,
    State.setCell, State.emit, State.advance, State.mapProgress]

/-- `INP(SDA)` on a line that is not released (R92). -/
theorem run_inp_sda (hd : d.dir ≠ .released) :
    runUops (.inp .sda :: us) ⟨c, d, f, .busy p, h, e, n, t, r⟩ =
      runUops us ⟨c, ⟨.inp, d.latch⟩, f, .busy { p with upc := p.upc + 1 }, h, e, n,
        t ++ [.sleep, .cfgIn .sda, .sleep], r⟩ := by
  simp [runUops, State.performUop, Uop.violation, State.dir, State.cell, hd, Uop.effect, State.delayed, State.setDir,
    State.latch, State.setCell, State.emit, State.advance, State.mapProgress]

/-- `OUT(SDA)` on a line that is not released (R91). -/
theorem run_out_sda (hd : d.dir ≠ .released) :
    runUops (.out .sda :: us) ⟨c, d, f, .busy p, h, e, n, t, r⟩ =
      runUops us ⟨c, ⟨.out, d.latch⟩, f, .busy { p with upc := p.upc + 1 }, h, e, n,
        t ++ [.sleep, .cfgOut .sda, .sleep], r⟩ := by
  simp [runUops, State.performUop, Uop.violation, State.dir, State.cell, hd, Uop.effect, State.delayed, State.setDir,
    State.latch, State.setCell, State.emit, State.advance, State.mapProgress]

/-- The answer drawn when the environment's list is `e`, `n` reads were made and the trace is `t` (R55). -/
def drawn (e : List Level) (n : Nat) (t : List Event) : Level :=
  match e with
  | v :: _ => v
  | [] => Config.envLevel n t

/-- The list decides the answer as long as it has one. -/
theorem drawn_cons (v : Level) (e : List Level) (n : Nat) (t : List Event) : drawn (v :: e) n t = v := rfl

/-- `RD(SDA)` on an input (R94): the answer is drawn after the leading sleep. -/
theorem run_rd_sda (k : Sink) :
    runUops (.rd .sda k :: us) ⟨c, ⟨.inp, x⟩, f, .busy p, h, e, n, t, r⟩ =
      runUops us ⟨c, ⟨.inp, x⟩, f,
        .busy { k.collect (drawn e n (t ++ [.sleep])) p with upc := (k.collect (drawn e n (t ++ [.sleep])) p).upc + 1 },
        h, e.tail, n + 1, t ++ [.sleep, .rd .sda (drawn e n (t ++ [.sleep])), .sleep], r⟩ := by
  cases e <;>
  simp [runUops, State.performUop, Uop.violation, State.dir, State.cell, Uop.effect, State.delayed, State.readPin,
    State.answer, State.takeAnswer, State.emit, State.advance, State.mapProgress, drawn]

/-! ### The sequences of the bus commands -/

/-- One written bit (R104). -/
theorem run_wbit (v : Level) (y : Level) :
    runUops (wbitUops v ++ us) ⟨⟨.out, x⟩, ⟨.out, y⟩, f, .busy p, h, e, n, t, r⟩ =
      runUops us ⟨⟨.out, false⟩, ⟨.out, v⟩, f, .busy { p with upc := p.upc + 3 }, h, e, n,
        t ++ withSleeps (bitSent v), r⟩ := by
  simp [wbitUops, run_wr_sda, run_wr_scl, BitVec.add_assoc, withSleeps, bitSent, Event.bracketed]

/-- A START (R102). -/
theorem run_start (y : Level) :
    runUops (startUops ++ us) ⟨⟨.out, x⟩, ⟨.out, y⟩, f, .busy p, h, e, n, t, r⟩ =
      runUops us ⟨⟨.out, false⟩, ⟨.out, false⟩, f, .busy { p with upc := p.upc + 4 }, h, e, n,
        t ++ withSleeps startPins, r⟩ := by
  simp [startUops, run_wr_sda, run_wr_scl, BitVec.add_assoc, withSleeps, startPins, Event.bracketed]

/-- A STOP (R103). -/
theorem run_stop (y : Level) :
    runUops (stopUops ++ us) ⟨⟨.out, x⟩, ⟨.out, y⟩, f, .busy p, h, e, n, t, r⟩ =
      runUops us ⟨⟨.out, false⟩, ⟨.out, true⟩, f, .busy { p with upc := p.upc + 4 }, h, e, n,
        t ++ withSleeps stopPins, r⟩ := by
  simp [stopUops, run_wr_sda, run_wr_scl, BitVec.add_assoc, withSleeps, stopPins, Event.bracketed]

/-- A sent acknowledge (R106). -/
theorem run_sack (y : Level) :
    runUops (sackUops ++ us) ⟨⟨.out, x⟩, ⟨.out, y⟩, f, .busy p, h, e, n, t, r⟩ =
      runUops us ⟨⟨.out, false⟩, ⟨.out, true⟩, f, .busy { p with upc := p.upc + 4 }, h, e, n,
        t ++ withSleeps [.wr .sda false, .wr .scl true, .wr .scl false, .wr .sda true], r⟩ := by
  simp [sackUops, run_wr_sda, run_wr_scl, BitVec.add_assoc, withSleeps, Event.bracketed]

/-- The level an RBIT or CACK sequence hears: the answer drawn after its release, its raised clock and a sleep. -/
def heardLevel (e : List Level) (n : Nat) (t : List Event) : Level :=
  drawn e n (t ++ withSleeps [.cfgIn .sda, .wr .scl true] ++ [.sleep])

@[simp] theorem heardLevel_cons (v : Level) (e : List Level) (n : Nat) (t : List Event) : heardLevel (v :: e) n t = v := rfl

/-- One heard bit, RBIT's and CACK's sequence (R105, R107). -/
theorem run_rbit (k : Sink) (hd : d.dir ≠ .released) :
    runUops (rbitUops k ++ us) ⟨⟨.out, x⟩, d, f, .busy p, h, e, n, t, r⟩ =
      runUops us ⟨⟨.out, false⟩, ⟨.inp, d.latch⟩, f, .busy (k.collect (heardLevel e n t) { p with upc := p.upc + 4 }),
        h, e.tail, n + 1, t ++ withSleeps (bitHeard (heardLevel e n t)), r⟩ := by
  simp only [rbitUops, List.cons_append, List.nil_append]
  rw [run_inp_sda _ _ _ _ _ _ _ _ _ _ hd, run_wr_scl, run_rd_sda, run_wr_scl]
  cases k <;> simp [Sink.collect, BitVec.add_assoc, withSleeps, bitHeard, Event.bracketed, heardLevel]

/-- CACK performs RBIT's sequence (R107). -/
theorem cackUops_eq_rbitUops (k : Sink) : cackUops k = rbitUops k := rfl

/-- The levels `k` heard bits give, one after the other. -/
def heardLevels : Nat → List Level → Nat → List Event → List Level
  | 0, _, _, _ => []
  | k + 1, e, n, t =>
    heardLevel e n t :: heardLevels k e.tail (n + 1) (t ++ withSleeps (bitHeard (heardLevel e n t)))

@[simp] theorem heardLevels_length (k : Nat) : (heardLevels k e n t).length = k := by
  induction k generalizing e n t with
  | zero => rfl
  | succ k ih => simp [heardLevels, ih]

/-- The environment's list gives the levels as long as it lasts (R55). -/
theorem heardLevels_append (vs rest : List Level) : heardLevels vs.length (vs ++ rest) n t = vs := by
  induction vs generalizing n t with
  | nil => rfl
  | cons v vs ih => simp [heardLevels, ih]

theorem withSleeps_append (a b : List Event) : withSleeps (a ++ b) = withSleeps a ++ withSleeps b := by
  simp [withSleeps]

/-- Heard bits go into `acc`, first bit highest (R122). -/
theorem run_rbits (k : Nat) (hd : d.dir ≠ .released) :
    runUops ((List.replicate (k + 1) (rbitUops .acc)).flatten ++ us) ⟨⟨.out, x⟩, d, f, .busy p, h, e, n, t, r⟩ =
      runUops us ⟨⟨.out, false⟩, ⟨.inp, d.latch⟩, f,
        .busy { p with
          upc := p.upc + BitVec.ofNat 8 (4 * (k + 1)), acc := (heardLevels (k + 1) e n t).foldl shiftIn p.acc },
        h, e.drop (k + 1), n + (k + 1), t ++ withSleeps ((heardLevels (k + 1) e n t).flatMap bitHeard), r⟩ := by
  induction k generalizing d x p e n t with
  | zero => simp [run_rbit, hd, Sink.collect, heardLevels]
  | succ k ih =>
    rw [List.replicate_succ, List.flatten_cons, List.append_assoc, run_rbit _ _ _ _ _ _ _ _ _ _ _ hd, ih _ _ _ _ _ _ (by simp)]
    have h4 : p.upc + 4 + BitVec.ofNat 8 (4 * (k + 1)) = p.upc + BitVec.ofNat 8 (4 * (k + 1 + 1)) := by
      rw [BitVec.add_assoc, show (4 : BitVec 8) = BitVec.ofNat 8 4 from rfl, ← BitVec.ofNat_add]
      congr 2; omega
    simp only [Sink.collect, h4]
    simp [heardLevels, withSleeps_append, Nat.add_comm, Nat.add_left_comm]

/-- The eight data bits of a SENDB (R121). -/
theorem run_byteBits (b : Byte) (y : Level) :
    runUops ((msbFirst b).flatMap wbitUops ++ us) ⟨⟨.out, x⟩, ⟨.out, y⟩, f, .busy p, h, e, n, t, r⟩ =
      runUops us ⟨⟨.out, false⟩, ⟨.out, b.getLsbD 0⟩, f, .busy { p with upc := p.upc + 24 }, h, e, n,
        t ++ withSleeps ((msbFirst b).flatMap bitSent), r⟩ := by
  simp only [msbFirst, List.flatMap_cons, List.flatMap_nil, List.append_nil, List.append_assoc, run_wbit]
  simp [BitVec.add_assoc, withSleeps_append]

/-- The level a SENDB of `b` hears in its acknowledge slot. -/
def ackLevel (b : Byte) (e : List Level) (n : Nat) (t : List Event) : Level :=
  heardLevel e n (t ++ withSleeps ((msbFirst b).flatMap bitSent ++ [.cfgIn .sda]))

@[simp] theorem ackLevel_cons (b : Byte) (v : Level) (e : List Level) (n : Nat) (t : List Event) :
    ackLevel b (v :: e) n t = v := rfl

/-- A SENDB (R121). -/
theorem run_sendb (b : Byte) (k : Sink) (y : Level) :
    runUops (sendbUops b k ++ us) ⟨⟨.out, x⟩, ⟨.out, y⟩, f, .busy p, h, e, n, t, r⟩ =
      runUops us ⟨⟨.out, false⟩, ⟨.out, b.getLsbD 0⟩, f,
        .busy (k.collect (ackLevel b e n t) { p with upc := p.upc + 30 }), h, e.tail, n + 1,
        t ++ withSleeps (sendbPins b (ackLevel b e n t)), r⟩ := by
  simp only [sendbUops, List.append_assoc, run_byteBits, List.cons_append, List.nil_append, cackUops_eq_rbitUops]
  rw [run_inp_sda _ _ _ _ _ _ _ _ _ _ (by simp), run_rbit _ _ _ _ _ _ _ _ _ _ _ (by simp),
    run_out_sda _ _ _ _ _ _ _ _ _ _ (by simp)]
  cases k <;>
  simp [Sink.collect, BitVec.add_assoc, ackLevel, sendbPins, withSleeps_append] <;>
  simp [withSleeps, Event.bracketed]

/-- A byte from the levels of its bits, first bit highest. -/
def accumulated (vs : List Level) : Byte := vs.foldl shiftIn 0

/-- The bits of an accumulated byte are the bits that went in (R122, R141). -/
theorem msbFirst_accumulated (vs : List Level) (hv : vs.length = 8) : msbFirst (accumulated vs) = vs := by
  match vs, hv with
  | [b7, b6, b5, b4, b3, b2, b1, b0], _ => revert b7 b6 b5 b4 b3 b2 b1 b0; decide

/-- A byte is what its own bits accumulate to. -/
theorem accumulated_msbFirst (b : Byte) : accumulated (msbFirst b) = b := by
  revert b; decide

/-- The byte a RECVB hears. -/
def heardByte (e : List Level) (n : Nat) (t : List Event) : Byte :=
  accumulated (heardLevels 8 e n (t ++ withSleeps [.cfgIn .sda]))

theorem heardByte_append (p : Byte) (rest : List Level) (n : Nat) (t : List Event) :
    heardByte (msbFirst p ++ rest) n t = p := by
  rw [heardByte, show 8 = (msbFirst p).length from rfl, heardLevels_append, accumulated_msbFirst]

/-- A RECVB entered with `acc = 0` (R122). -/
theorem run_recvb (hd : d.dir ≠ .released) (ha : p.acc = 0) :
    runUops (recvbUops ++ us) ⟨⟨.out, x⟩, d, f, .busy p, h, e, n, t, r⟩ =
      runUops us ⟨⟨.out, false⟩, ⟨.out, true⟩, f, .busy { p with upc := p.upc + 38, acc := heardByte e n t }, h,
        e.drop 8, n + 8, t ++ withSleeps (recvbPins (heardByte e n t)), r⟩ := by
  simp only [recvbUops, List.append_assoc, List.cons_append, List.nil_append]
  rw [run_inp_sda _ _ _ _ _ _ _ _ _ _ hd, run_rbits _ _ _ _ _ _ _ _ _ _ 7 (by simp),
    run_out_sda _ _ _ _ _ _ _ _ _ _ (by simp), run_sack]
  have hs : t ++ [Event.sleep, .cfgIn .sda, .sleep] = t ++ withSleeps [.cfgIn .sda] := rfl
  rw [hs]
  have hm : msbFirst (heardByte e n t) = heardLevels 8 e n (t ++ withSleeps [.cfgIn .sda]) :=
    msbFirst_accumulated _ (by simp)
  rw [recvbPins, hm]
  simp [BitVec.add_assoc, ha, heardByte, accumulated]
  simp [withSleeps, Event.bracketed]

end

end Sys2Proof.Machine
end

