-- ==== Sys2Proof/Laws/PerInstr.lean ====
section
/-! SUPPORT. Families of lemmas with one lemma per constructor of Instr. -/

namespace Sys2Proof.Laws.RowMask

/-- The word of a well-formed command matches its row of R73: `w & mask = match`. -/
def Statement (i : Instr) : Prop := i.wellFormed = true → encode i &&& i.row.mask = i.row.pattern

theorem lnout (line : Line) : Statement (.lnout line) := by intro _; revert line; rintro (_ | _) <;> decide
theorem lnin (line : Line) : Statement (.lnin line) := by intro _; revert line; rintro (_ | _) <;> decide
theorem lnwr (line : Line) (level : Level) : Statement (.lnwr line level) := by
  intro _; revert line level; rintro (_ | _) (_ | _) <;> decide
theorem lnrd (line : Line) : Statement (.lnrd line) := by intro _; revert line; rintro (_ | _) <;> decide
theorem lnrel (line : Line) : Statement (.lnrel line) := by intro _; revert line; rintro (_ | _) <;> decide
theorem start : Statement .start := by intro _; decide
theorem stop : Statement .stop := by intro _; decide
theorem wbit (bit : Level) : Statement (.wbit bit) := by intro _; revert bit; rintro (_ | _) <;> decide
theorem rbit : Statement .rbit := by intro _; decide
theorem sack : Statement .sack := by intro _; decide
theorem cack : Statement .cack := by intro _; decide
theorem sendb (byte : Byte) : Statement (.sendb byte) := by intro _; revert byte; decide
theorem recvb : Statement .recvb := by intro _; decide

theorem rdreg (dev reg : Byte) : Statement (.rdreg dev reg) := by
  intro h
  have h7 : dev[7] = false := by simpa [Instr.wellFormed, BitVec.msb_eq_getLsbD_last] using h
  simp only [encode, Instr.operandField, Instr.row, Instr.opcode]
  ext i hi
  rcases (by omega : i < 8 ∨ 8 ≤ i ∧ i < 16 ∨ 16 ≤ i) with h1 | h1 | h1
  · interval_cases i <;> simp
  · interval_cases i <;> simp [h7]
  · interval_cases i <;> simp

theorem dec16 (low high : Byte) : Statement (.dec16 low high) := by
  intro _
  simp only [encode, Instr.operandField, Instr.row, Instr.opcode]
  ext i hi
  interval_cases i <;> simp

theorem cleanup : Statement .cleanup := by intro _; decide

end Sys2Proof.Laws.RowMask
end

