-- ==== Sys2Proof/Laws/Step.lean ====
section
/-! SUPPORT. What a step can do: μops, runs of μops, a command's end, the sequencer's settling, said once each. -/

namespace Sys2Proof.Machine

/-- What μops can do to a state, and no more: pin events with their sleeps are added to the trace, the pads follow them,
released lines stay released; the fault status, the host's moves and the responses are untouched. -/
structure Extends (s t : State) : Prop where
  fsr : t.fsr = s.fsr
  host : t.host = s.host
  responses : t.responses = s.responses
  trace : ∃ pins, t.trace = s.trace ++ withSleeps pins ∧ t.pads = (withSleeps pins).foldl Pads.after s.pads
  released : ∀ l, s.dir l = .released → t.dir l = .released

theorem Extends.refl (s : State) : Extends s s := ⟨rfl, rfl, rfl, ⟨[], by simp [withSleeps], rfl⟩, fun _ h => h⟩

theorem Extends.trans {s t u : State} (a : Extends s t) (b : Extends t u) : Extends s u := by
  obtain ⟨p, hp, hp'⟩ := a.trace
  obtain ⟨q, hq, hq'⟩ := b.trace
  exact ⟨b.fsr.trans a.fsr, b.host.trans a.host, b.responses.trans a.responses,
    ⟨p ++ q, by rw [hq, hp, withSleeps_append, List.append_assoc],
      by rw [hq', hp', withSleeps_append, List.foldl_append]⟩,
    fun l h => b.released l (a.released l h)⟩

/-- A change of `SEQ` alone is no change to the world outside. -/
theorem extends_seq (s : State) (q : Seq) : Extends s { s with seq := q } :=
  ⟨rfl, rfl, rfl, ⟨[], by simp [withSleeps], rfl⟩, fun _ h => h⟩

theorem mapProgress_extends (s : State) (f : Progress → Progress) : Extends s (s.mapProgress f) := by
  obtain ⟨q, h⟩ := mapProgress_eq s f
  rw [h]
  exact extends_seq s q

/-- The frame and the effect of a μop whose precondition holds (R90 to R95). -/
theorem effect_extends {u : Uop} {s : State} (h : u.violation s = none) : Extends s (u.effect s) := by
  obtain ⟨⟨cd, cl⟩, ⟨dd, dl⟩, f, q, hm, e, n, t, r⟩ := s
  cases u with
  | out l =>
    refine ⟨?_, ?_, ?_, ⟨[.cfgOut l], ?_, ?_⟩, ?_⟩
    · simp [Uop.effect, State.delayed, State.setDir]
    · simp [Uop.effect, State.delayed, State.setDir]
    · simp [Uop.effect, State.delayed, State.setDir]
    · simp [Uop.effect, State.delayed, State.setDir, withSleeps, Event.bracketed]
    · cases l <;> cases cd <;> cases dd <;> first | rfl | simp [Uop.violation, State.dir, State.cell] at h
    · intro k hk
      cases l <;> cases k <;>
      simp_all [Uop.violation, State.dir, State.cell, Uop.effect, State.delayed, State.emit, State.setDir, State.setCell]
  | inp l =>
    refine ⟨?_, ?_, ?_, ⟨[.cfgIn l], ?_, ?_⟩, ?_⟩
    · simp [Uop.effect, State.delayed, State.setDir]
    · simp [Uop.effect, State.delayed, State.setDir]
    · simp [Uop.effect, State.delayed, State.setDir]
    · simp [Uop.effect, State.delayed, State.setDir, withSleeps, Event.bracketed]
    · cases l <;> cases cd <;> cases dd <;> first | rfl | simp [Uop.violation, State.dir, State.cell] at h
    · intro k hk
      cases l <;> cases k <;>
      simp_all [Uop.violation, State.dir, State.cell, Uop.effect, State.delayed, State.emit, State.setDir, State.setCell]
  | wr l v =>
    refine ⟨?_, ?_, ?_, ⟨[.wr l v], ?_, ?_⟩, ?_⟩
    · simp [Uop.effect, State.delayed, State.setLatch]
    · simp [Uop.effect, State.delayed, State.setLatch]
    · simp [Uop.effect, State.delayed, State.setLatch]
    · simp [Uop.effect, State.delayed, State.setLatch, withSleeps, Event.bracketed]
    · cases l <;> rfl
    · intro k hk
      cases l <;> cases k <;>
      simp_all [Uop.violation, State.dir, State.cell, Uop.effect, State.delayed, State.emit, State.setLatch, State.setCell]
  | rd l k =>
    refine ⟨?_, ?_, ?_, ⟨[.rd l (State.answer (State.emit ⟨⟨cd, cl⟩, ⟨dd, dl⟩, f, q, hm, e, n, t, r⟩ .sleep))], ?_, ?_⟩, ?_⟩
    · simp [Uop.effect, State.delayed, State.readPin]
    · simp [Uop.effect, State.delayed, State.readPin]
    · simp [Uop.effect, State.delayed, State.readPin]
    · simp [Uop.effect, State.delayed, State.readPin, withSleeps, Event.bracketed]
    · simp [Uop.effect, State.delayed, State.readPin, State.pads, withSleeps, Event.bracketed, Pads.after]
    · intro j hj
      cases j <;> simpa [Uop.effect, State.delayed, State.readPin, State.dir, State.cell] using hj
  | rel l =>
    by_cases hl : State.dir ⟨⟨cd, cl⟩, ⟨dd, dl⟩, f, q, hm, e, n, t, r⟩ l = .released
    · simpa [Uop.effect, hl] using Extends.refl _
    · simp only [Uop.effect, hl, if_false]
      refine ⟨?_, ?_, ?_, ⟨[.rel l], ?_, ?_⟩, ?_⟩
      · simp [State.setDir]
      · simp [State.setDir]
      · simp [State.setDir]
      · simp [State.setDir, withSleeps, Event.bracketed]
      · cases l <;> rfl
      · intro k hk
        cases l <;> cases k <;> simp_all [State.dir, State.cell, State.emit, State.setDir, State.setCell]

theorem performUop_extends {u : Uop} {s t : State} (h : s.performUop u = .ok t) : Extends s t := by
  obtain ⟨hv, rfl⟩ := performUop_ok_iff.1 h
  exact (effect_extends hv).trans (mapProgress_extends _ _)

/-- The state a run ends in, or the one the violating μop met. -/
def Run.state : Run → State
  | .done s => s
  | .violated _ _ s => s

/-- A run of μops, whether it ends or meets a violation (R163: "Everything the command's earlier μops did stands"). -/
theorem runUops_extends (us : List Uop) (s : State) : Extends s (runUops us s).state := by
  induction us generalizing s with
  | nil => exact Extends.refl s
  | cons u us ih =>
    cases h : s.performUop u with
    | error c => simpa [runUops, h, Run.state] using Extends.refl s
    | ok t => simpa [runUops, h] using (performUop_extends h).trans (ih t)

/-- A run raises one of the codes 1 to 3 (R161). -/
theorem runUops_code {us : List Uop} {s t : State} {c : FaultCode} {l : Line} (h : runUops us s = .violated c l t) :
    c = .writeOnNonOutput ∨ c = .readOnNonInput ∨ c = .useAfterCleanup := by
  induction us generalizing s with
  | nil => simp [runUops] at h
  | cons u us ih =>
    cases hu : s.performUop u with
    | error k =>
      simp only [runUops, hu, Run.violated.injEq] at h
      obtain ⟨rfl, -, -⟩ := h
      exact violation_code (performUop_error_iff.1 hu)
    | ok t' => exact ih (by simpa [runUops, hu] using h)

/-- `SEQ` stays busy, with the command word it had, through a μop. -/
theorem performUop_busy {u : Uop} {s t : State} {p : Progress} (hs : s.seq = .busy p) (h : s.performUop u = .ok t) :
    ∃ q, t.seq = .busy q ∧ q.cmd = p.cmd ∧ q.upc = p.upc + 1 := by
  obtain ⟨-, rfl⟩ := performUop_ok_iff.1 h
  have key : ∃ q, (u.effect s).seq = .busy q ∧ q.cmd = p.cmd ∧ q.upc = p.upc := by
    cases u with
    | out l => exact ⟨p, by simp [Uop.effect, State.delayed, State.setDir, hs], rfl, rfl⟩
    | inp l => exact ⟨p, by simp [Uop.effect, State.delayed, State.setDir, hs], rfl, rfl⟩
    | wr l v => exact ⟨p, by simp [Uop.effect, State.delayed, State.setLatch, hs], rfl, rfl⟩
    | rd l k =>
      refine ⟨k.collect (s.emit .sleep).answer p, ?_, ?_, ?_⟩
      · simp [Uop.effect, State.delayed, State.readPin, State.mapProgress, hs]
      · cases k <;> rfl
      · cases k <;> rfl
    | rel l =>
      refine ⟨p, ?_, rfl, rfl⟩
      simp only [Uop.effect]
      split <;> simp [State.setDir, hs]
  obtain ⟨q, h1, h2, h3⟩ := key
  exact ⟨_, mapProgress_seq_busy _ _ h1, h2, by simp [h3]⟩

/-- The longest command has 144 μops (R26, R132). -/
theorem commandOf_length (i : Instr) : (commandOf i).uops.length ≤ 144 := by
  cases i with
  | sendb b => simp [commandOf, sendbCommand, sendbUops, msbFirst, wbitUops, cackUops]
  | rdreg d r =>
    simp [commandOf, rdregCommand, rdregUops, stopUops, startUops, sendbUops, recvbUops, msbFirst, wbitUops, cackUops,
      rbitUops, sackUops]
  | recvb => decide
  | lnout _ => simp [commandOf, lnoutCommand]
  | lnin _ => simp [commandOf, lninCommand]
  | lnwr _ _ => simp [commandOf, lnwrCommand]
  | lnrd _ => simp [commandOf, lnrdCommand]
  | lnrel _ => simp [commandOf, lnrelCommand]
  | start => decide
  | stop => decide
  | wbit _ => simp [commandOf, wbitCommand, wbitUops]
  | rbit => decide
  | sack => decide
  | cack => decide
  | dec16 _ _ => simp [commandOf, dec16Command]
  | cleanup => decide

/-- Every arm of `exec` performs the command the sequencer sees (R28). -/
theorem exec_eq_perform (i : Instr) (s : State) : exec i s = (commandOf i).perform s := by cases i <;> rfl

/-- The word of each command is its encoding. -/
theorem commandOf_word (i : Instr) : (commandOf i).word = encode i := by cases i <;> rfl

/-- Which commands the faulted state performs (R165). -/
theorem commandOf_inFault (i : Instr) : (commandOf i).inFault = performedInFault i := by cases i <;> rfl

/-- A meaning asked in `Idle`, out of the faulted state. -/
theorem perform_ready {c : Command} {s : State} (h : s.Ready) :
    c.perform s = .next ((runUops c.uops (s.begin c.word)).conclude c.answer) := by
  simp [Command.perform, h.1, h.2]

/-- The end of a command in progress. -/
theorem finish_busy {s : State} {p : Progress} (h : s.seq = .busy p) (a : Progress → Answer) :
    s.finish a = { s with seq := .idle, responses := s.responses ++ [responseWord 0 (a p).nack (a p).value] } := by
  simp [State.finish, h, State.respond]

/-- A void μop is performed without effect. -/
theorem performUop_of_isVoid {u : Uop} {s : State} (h : u.isVoid s = true) : s.performUop u = .ok s.advance := by
  cases u with
  | rel l =>
    have hl : s.dir l = .released := by simpa [Uop.isVoid] using h
    simp [State.performUop, Uop.violation, Uop.effect, hl]
  | out l => simp [Uop.isVoid] at h
  | inp l => simp [Uop.isVoid] at h
  | wr l v => simp [Uop.isVoid] at h
  | rd l k => simp [Uop.isVoid] at h

/-- A run's first step when it answers a next state. -/
theorem core_run_succ {s t : State} (h : step s = .next t) (k : Nat) :
    Sys2Proof.core.run (k + 1) s = Sys2Proof.core.run k t := by
  have hs : Sys2Proof.core.step s = .next t := h
  simp only [Host.Core.run, hs]

/-! ### One μop, and the settling after it -/

/-- Whether a μop is void does not depend on `SEQ`. -/
theorem isVoid_seq {u : Uop} {s : State} (q : Seq) : u.isVoid { s with seq := q } = u.isVoid s := by cases u <;> rfl

theorem nextUop_seq {s : State} (q : Seq) {us n} : NextUop { s with seq := q } us n ↔ NextUop s us n := by
  simp [NextUop, isVoid_seq]

theorem voidBetween_seq {s : State} (q : Seq) {us a b} :
    VoidBetween { s with seq := q } us a b ↔ VoidBetween s us a b := by
  simp [VoidBetween, isVoid_seq]

theorem advance_busy {s : State} {p : Progress} (h : s.seq = .busy p) :
    s.advance = { s with seq := .busy { p with upc := p.upc + 1 } } := by
  simp [State.advance, State.mapProgress, h]

/-- All that settling can do (R27): with `m` μops of the command behind it, `SEQ` stands at the first of the others that
does something, or, if none does, the command ends. -/
theorem settle_spec (answer : Progress → Answer) {all : List Uop} (us : List Uop) :
    ∀ (s : State) (p : Progress) (m : Nat),
    s.seq = .busy p → p.upc = BitVec.ofNat 8 m → m ≤ all.length → all.drop m = us →
    (∃ n, m ≤ n ∧ n < all.length ∧ settle answer us s = { s with seq := .busy { p with upc := BitVec.ofNat 8 n } } ∧
      VoidBetween s all m n ∧ NextUop s all n) ∨
    (VoidBetween s all m all.length ∧
      settle answer us s = State.finish { s with seq := .busy { p with upc := BitVec.ofNat 8 all.length } } answer) := by
  induction us with
  | nil =>
    intro s p m hs hp hm hd
    have hle : all.length ≤ m := by simpa using hd
    have he : m = all.length := by omega
    subst he
    right
    refine ⟨fun k u h1 h2 => by omega, ?_⟩
    rw [settle, ← hp, ← hs]
  | cons u us ih =>
    intro s p m hs hp hm hd
    have hu : all[m]? = some u := by
      rw [← List.head?_drop, hd]; rfl
    have hlt : m < all.length := (List.getElem?_eq_some_iff.1 hu).1
    by_cases hv : u.isVoid s = true
    · rw [settle, if_pos hv]
      have ha := advance_busy hs
      have hd' : all.drop (m + 1) = us := by rw [← List.tail_drop, hd]; rfl
      have := ih s.advance { p with upc := p.upc + 1 } (m + 1) (by rw [ha]) (by rw [hp]; simp [BitVec.ofNat_add]) hlt hd'
      rw [ha] at this ⊢
      simp only [voidBetween_seq, nextUop_seq] at this
      have key : ∀ n, VoidBetween s all (m + 1) n → VoidBetween s all m n := by
        intro n h k w h1 h2 h3
        rcases Nat.eq_or_lt_of_le h1 with rfl | h1
        · rw [hu] at h3; cases h3; exact hv
        · exact h k w h1 h2 h3
      rcases this with ⟨n, h1, h2, h3, h4, h5⟩ | ⟨h1, h2⟩
      · exact .inl ⟨n, by omega, h2, h3, key n h4, h5⟩
      · exact .inr ⟨key _ h1, h2⟩
    · left
      refine ⟨m, le_refl _, hlt, ?_, fun k u h1 h2 => by omega, u, hu, by simpa using hv⟩
      rw [settle, if_neg hv, ← hp, ← hs]

/-- All that a μop whose precondition holds does (R27, R90 to R95). -/
theorem performUop_spec {u : Uop} {s : State} {p : Progress} (hs : s.seq = .busy p) (hv : u.violation s = none) :
    ∃ v : Level, ∃ t : State, (∀ a rest, s.env = a :: rest → v = a) ∧ s.performUop u = .ok t ∧
      t.seq = .busy { u.collected v p with upc := p.upc + 1 } ∧
      t.trace = s.trace ++ (if u.isVoid s then [] else Event.bracketed (u.pinEvent v)) ∧
      (∀ l, t.cell l = u.cellAfter l (s.cell l)) ∧ t.fsr = s.fsr ∧ t.host = s.host ∧
      t.env = s.env.drop u.answersUsed ∧ t.reads = s.reads + u.answersUsed ∧ t.responses = s.responses := by
  have ho : s.performUop u = .ok (u.effect s).advance := performUop_ok_iff.2 ⟨hv, rfl⟩
  refine ⟨(s.emit .sleep).answer, _, fun a rest h => by simp [State.answer, State.emit, h], ho, ?_⟩
  obtain ⟨⟨cd, cl⟩, ⟨dd, dl⟩, f, q, hm, e, n, t, r⟩ := s
  subst hs
  cases u with
  | out l =>
    cases l <;>
    simp_all [Uop.effect, State.delayed, State.setDir, State.advance, State.mapProgress, Uop.isVoid, Uop.pinEvent,
      Event.bracketed, State.emit, State.setCell, State.latch, State.cell, Uop.cellAfter, Uop.line, Uop.answersUsed,
      Uop.collected] <;>
    (intro l; cases l <;> rfl)
  | inp l =>
    cases l <;>
    simp_all [Uop.effect, State.delayed, State.setDir, State.advance, State.mapProgress, Uop.isVoid, Uop.pinEvent,
      Event.bracketed, State.emit, State.setCell, State.latch, State.cell, Uop.cellAfter, Uop.line, Uop.answersUsed,
      Uop.collected] <;>
    (intro l; cases l <;> rfl)
  | wr l v =>
    cases l <;>
    simp_all [Uop.effect, State.delayed, State.setLatch, State.advance, State.mapProgress, Uop.isVoid, Uop.pinEvent,
      Event.bracketed, State.emit, State.setCell, State.dir, State.cell, Uop.cellAfter, Uop.line, Uop.answersUsed,
      Uop.collected] <;>
    (intro l; cases l <;> rfl)
  | rd l k =>
    refine ⟨?_, ?_, ?_, ?_, ?_, ?_, ?_, ?_⟩
    · cases k <;>
      simp [Uop.effect, State.delayed, State.readPin, State.advance, State.mapProgress, Uop.collected, Sink.collect]
    · simp [Uop.effect, State.delayed, State.readPin, State.advance, State.mapProgress, Uop.isVoid, Uop.pinEvent,
        Event.bracketed]
    · intro j
      cases l <;> cases j <;>
      simp [Uop.effect, State.delayed, State.readPin, State.advance, State.mapProgress, Uop.cellAfter, Uop.line, State.cell]
    all_goals simp [Uop.effect, State.delayed, State.readPin, State.advance, State.mapProgress, Uop.answersUsed]
  | rel l =>
    cases l <;> cases cd <;> cases dd <;>
    simp [Uop.effect, State.dir, State.cell, State.setDir, State.advance, State.mapProgress, Uop.isVoid, Uop.pinEvent,
      Event.bracketed, State.emit, State.setCell, State.latch, Uop.cellAfter, Uop.line, Uop.answersUsed, Uop.collected] <;>
    (intro l; cases l <;> rfl)

end Sys2Proof.Machine
end

