-- ==== Sys2Proof/Laws/Wire.lean ====
section
/-! SUPPORT. What an observer sees of a segment of a trace (spec/41_bus_signalling.md R108): histories of appended traces,
and the segments the bus commands are made of, each entered with the clock driven low. -/

namespace Sys2Proof.Machine

variable (outside : Nat → Line → Level)

/-! ### Appended traces -/

theorem wireHistory_append (n : Nat) (p : Pads) (a b : List Event) :
    wireHistory outside n p (a ++ b) =
      wireHistory outside n p a ++ wireHistory outside (n + a.length) (a.foldl Pads.after p) b := by
  induction a generalizing n p with
  | nil => rfl
  | cons e a ih => simp [wireHistory, ih, Nat.add_assoc, Nat.add_comm 1]

theorem conditionsSeen_append (n : Nat) (p : Pads) (a b : List Event) :
    conditionsSeen outside n p (a ++ b) =
      conditionsSeen outside n p a ++ conditionsSeen outside (n + a.length) (a.foldl Pads.after p) b := by
  induction a generalizing n p with
  | nil => rfl
  | cons e a ih => simp [conditionsSeen, ih, Nat.add_assoc, Nat.add_comm 1]

theorem slaveKeepsRules_append (n : Nat) (p : Pads) (a b : List Event) :
    slaveKeepsRules outside n p (a ++ b) =
      (slaveKeepsRules outside n p a && slaveKeepsRules outside (n + a.length) (a.foldl Pads.after p) b) := by
  induction a generalizing n p with
  | nil => simp [slaveKeepsRules]
  | cons e a ih => simp [slaveKeepsRules, ih, Nat.add_assoc, Nat.add_comm 1, Bool.and_assoc]

theorem watch_append (o : Observer) (a b : List WireState) : o.watch (a ++ b) = o.watch a ++ (o.afterAll a).watch b := by
  induction a generalizing o with
  | nil => rfl
  | cons w a ih => simp [Observer.watch, ih, Observer.afterAll]

theorem afterAll_append (o : Observer) (a b : List WireState) : o.afterAll (a ++ b) = (o.afterAll a).afterAll b := by
  simp [Observer.afterAll]

theorem clockEdges_append (o : Observer) (a b : List WireState) :
    clockEdges o.last (a ++ b) = clockEdges o.last a ++ clockEdges (o.afterAll a).last b := by
  induction a generalizing o with
  | nil => rfl
  | cons w a ih =>
    have h := ih (o.after w)
    simp only [Observer.after] at h
    simp [clockEdges, Observer.afterAll, Observer.after, h]

theorem pulses_add (k m : Nat) : pulses (k + m) = pulses k ++ pulses m := by
  rw [pulses, List.replicate_add, List.flatten_append]
  rfl

/-! ### Moments -/

/-- Without a reset the moments of a trace show what its events show. -/
theorem momentHistory_events (n : Nat) (p : Pads) (es : List Event) :
    momentHistory outside n p (es.map .event) = wireHistory outside n p es := by
  induction es generalizing n p with
  | nil => rfl
  | cons e es ih => simp [momentHistory, wireHistory, ih]

theorem momentHistory_append (n : Nat) (p : Pads) (a b : List Moment) :
    momentHistory outside n p (a ++ b) =
      momentHistory outside n p a ++ momentHistory outside (n + a.length) (a.foldl Pads.afterMoment p) b := by
  induction a generalizing n p with
  | nil => rfl
  | cons m a ih =>
    cases m <;> simp [momentHistory, ih, Pads.afterMoment, Nat.add_assoc, Nat.add_comm 1]

theorem observedOver_events (p : Pads) (es : List Event) :
    observedOver outside p (es.map .event) = observed outside p es := by
  rw [observedOver, momentHistory_events, observed]

/-- After a reset the block drives both wires: clock low, data high, whatever the outside does (R191). -/
@[simp] theorem resetPads_wires (o : Line → Level) : resetPads.wires o = ⟨false, true⟩ := rfl

/-- The pads of a state that was reset (R191). -/
@[simp] theorem resetBlock_pads (s : State) : s.resetBlock.pads = resetPads := rfl

/-! ### Segments -/

/-- What a segment of a trace that begins and ends with the clock low shows: the block's conditions `c` and `k` clock pulses,
whatever the outside does; and, beside a slave that keeps the rules of the bus, all that an observer sees. -/
structure Segment (n : Nat) (p : Pads) (es : List Event) (c : List Condition) (k : Nat) (seen : List Seen) : Prop where
  conditions : conditionsSeen outside n p es = c
  edges : ∀ o : Observer, o.last.scl = false → clockEdges o.last (wireHistory outside n p es) = pulses k
  seen : slaveKeepsRules outside n p es = true → ∀ o : Observer, o.last.scl = false →
    o.watch (wireHistory outside n p es) = seen
  low : ∀ o : Observer, o.last.scl = false → (o.afterAll (wireHistory outside n p es)).last.scl = false

variable {outside}

/-- Segments one after the other. -/
theorem Segment.append {n : Nat} {p q : Pads} {a b : List Event} {c d : List Condition} {k m : Nat} {v w : List Seen}
    (ha : Segment outside n p a c k v) (hq : a.foldl Pads.after p = q) (hb : Segment outside (n + a.length) q b d m w) :
    Segment outside n p (a ++ b) (c ++ d) (k + m) (v ++ w) := by
  subst hq
  refine ⟨?_, fun o ho => ?_, fun hs o ho => ?_, fun o ho => ?_⟩
  · rw [conditionsSeen_append, ha.conditions, hb.conditions]
  · rw [wireHistory_append, clockEdges_append, ha.edges o ho, hb.edges _ (ha.low o ho), pulses_add]
  · rw [slaveKeepsRules_append, Bool.and_eq_true] at hs
    rw [wireHistory_append, watch_append, ha.seen hs.1 o ho, hb.seen hs.2 _ (ha.low o ho)]
  · rw [wireHistory_append, afterAll_append]
    exact hb.low _ (ha.low o ho)

/-- The pads with the clock driven low and the data pad `q`. -/
def clockLow (w z : Bool) (q : LinePads) : Pads := ⟨⟨false, true, w, z⟩, q⟩

variable (n : Nat) (w z : Bool) (q : LinePads)

theorem seg_nil : Segment outside n (clockLow w z q) [] [] 0 [] := ⟨rfl, fun _ _ => rfl, fun _ _ _ => rfl, fun _ h => h⟩

/-- A change of the data line's direction (R108: "these too happen only while the clock is low"). -/
theorem seg_cfgIn : Segment outside n (clockLow w z q) (withSleeps [.cfgIn .sda]) [] 0 [] := by
  refine ⟨?_, ?_, ?_, ?_⟩
  · simp [withSleeps, Event.bracketed, conditionsSeen, Pads.after, Pads.modify, Pads.wires, LinePads.wire, conditionBetween,
      clockLow]
  · rintro ⟨⟨a, b⟩, held⟩ rfl
    simp [withSleeps, Event.bracketed, wireHistory, clockEdges, Pads.after, Pads.modify, Pads.wires, LinePads.wire,
      clockEdgeBetween, pulses, clockLow]
  · rintro - ⟨⟨a, b⟩, held⟩ rfl
    simp [withSleeps, Event.bracketed, wireHistory, Observer.watch, Observer.sees, Observer.after, Pads.after, Pads.modify,
      Pads.wires, LinePads.wire, clockEdgeBetween, conditionBetween, clockLow]
  · rintro o -
    simp [withSleeps, Event.bracketed, wireHistory, Observer.afterAll, Observer.after, Pads.after, Pads.modify, Pads.wires,
      LinePads.wire, clockLow]

theorem seg_cfgOut : Segment outside n (clockLow w z q) (withSleeps [.cfgOut .sda]) [] 0 [] := by
  refine ⟨?_, ?_, ?_, ?_⟩
  · simp [withSleeps, Event.bracketed, conditionsSeen, Pads.after, Pads.modify, Pads.wires, LinePads.wire, conditionBetween,
      clockLow]
  · rintro ⟨⟨a, b⟩, held⟩ rfl
    simp [withSleeps, Event.bracketed, wireHistory, clockEdges, Pads.after, Pads.modify, Pads.wires, LinePads.wire,
      clockEdgeBetween, pulses, clockLow]
  · rintro - ⟨⟨a, b⟩, held⟩ rfl
    simp [withSleeps, Event.bracketed, wireHistory, Observer.watch, Observer.sees, Observer.after, Pads.after, Pads.modify,
      Pads.wires, LinePads.wire, clockEdgeBetween, conditionBetween, clockLow]
  · rintro o -
    simp [withSleeps, Event.bracketed, wireHistory, Observer.afterAll, Observer.after, Pads.after, Pads.modify, Pads.wires,
      LinePads.wire, clockLow]

/-- One bit slot in which the block listens (R105, R107). -/
theorem seg_bitHeard (v : Level) : Segment outside n (clockLow w z q) (withSleeps (bitHeard v)) [] 1 [.bit v] := by
  refine ⟨?_, ?_, ?_, ?_⟩
  · simp [withSleeps, bitHeard, Event.bracketed, conditionsSeen, Pads.after, Pads.modify, Pads.wires, LinePads.wire,
      conditionBetween, clockLow]
  · rintro ⟨⟨a, b⟩, held⟩ rfl
    simp [withSleeps, bitHeard, Event.bracketed, wireHistory, clockEdges, Pads.after, Pads.modify, Pads.wires, LinePads.wire,
      clockEdgeBetween, pulses, clockLow]
  · rintro hs ⟨⟨a, b⟩, held⟩ rfl
    simp [withSleeps, bitHeard, Event.bracketed, slaveKeepsRules, Event.readsFrom, Pads.after, Pads.modify, Pads.wires,
      LinePads.wire, clockLow] at hs
    obtain ⟨h1, h2, h3, ⟨hv, h4⟩, h5, h6⟩ := hs
    have hv' := (h1.symm.trans (h2.symm.trans (h3.symm.trans hv)))
    simp [withSleeps, bitHeard, Event.bracketed, wireHistory, Observer.watch, Observer.sees, Observer.after, Pads.after,
      Pads.modify, Pads.wires, LinePads.wire, clockEdgeBetween, conditionBetween, clockLow, h1, h2, h3, h4, h5, h6, hv']
  · rintro o -
    simp [withSleeps, bitHeard, Event.bracketed, wireHistory, Observer.afterAll, Observer.after, Pads.after, Pads.modify,
      Pads.wires, LinePads.wire, clockLow]

/-- The data pad an output of level `u`. -/
def driving (w z : Bool) (u : Level) : LinePads := ⟨u, true, w, z⟩

variable (x y : Bool) (u : Level)

/-- One bit the block sends (R104). -/
theorem seg_bitSent (v : Level) :
    Segment outside n (clockLow w z (driving x y u)) (withSleeps (bitSent v)) [] 1 [.bit v] := by
  refine ⟨?_, ?_, ?_, ?_⟩
  · simp [withSleeps, bitSent, Event.bracketed, conditionsSeen, Pads.after, Pads.modify, Pads.wires, LinePads.wire,
      conditionBetween, clockLow, driving]
  · rintro ⟨⟨a, b⟩, held⟩ rfl
    simp [withSleeps, bitSent, Event.bracketed, wireHistory, clockEdges, Pads.after, Pads.modify, Pads.wires, LinePads.wire,
      clockEdgeBetween, pulses, clockLow, driving]
  · rintro - ⟨⟨a, b⟩, held⟩ rfl
    simp [withSleeps, bitSent, Event.bracketed, wireHistory, Observer.watch, Observer.sees, Observer.after, Pads.after,
      Pads.modify, Pads.wires, LinePads.wire, clockEdgeBetween, conditionBetween, clockLow, driving]
  · rintro o -
    simp [withSleeps, bitSent, Event.bracketed, wireHistory, Observer.afterAll, Observer.after, Pads.after, Pads.modify,
      Pads.wires, LinePads.wire, clockLow, driving]

/-- A data write while the clock is low (R106 "restore"). -/
theorem seg_wrData (v : Level) : Segment outside n (clockLow w z (driving x y u)) (withSleeps [.wr .sda v]) [] 0 [] := by
  refine ⟨?_, ?_, ?_, ?_⟩
  · simp [withSleeps, Event.bracketed, conditionsSeen, Pads.after, Pads.modify, Pads.wires, LinePads.wire, conditionBetween,
      clockLow, driving]
  · rintro ⟨⟨a, b⟩, held⟩ rfl
    simp [withSleeps, Event.bracketed, wireHistory, clockEdges, Pads.after, Pads.modify, Pads.wires, LinePads.wire,
      clockEdgeBetween, pulses, clockLow, driving]
  · rintro - ⟨⟨a, b⟩, held⟩ rfl
    simp [withSleeps, Event.bracketed, wireHistory, Observer.watch, Observer.sees, Observer.after, Pads.after, Pads.modify,
      Pads.wires, LinePads.wire, clockEdgeBetween, conditionBetween, clockLow, driving]
  · rintro o -
    simp [withSleeps, Event.bracketed, wireHistory, Observer.afterAll, Observer.after, Pads.after, Pads.modify, Pads.wires,
      LinePads.wire, clockLow, driving]

/-- A START (R102). -/
theorem seg_start :
    Segment outside n (clockLow w z (driving x y u)) (withSleeps startPins) [.start] 1 [.condition .start] := by
  refine ⟨?_, ?_, ?_, ?_⟩
  · simp [withSleeps, startPins, Event.bracketed, conditionsSeen, Pads.after, Pads.modify, Pads.wires, LinePads.wire,
      conditionBetween, clockLow, driving]
  · rintro ⟨⟨a, b⟩, held⟩ rfl
    simp [withSleeps, startPins, Event.bracketed, wireHistory, clockEdges, Pads.after, Pads.modify, Pads.wires, LinePads.wire,
      clockEdgeBetween, pulses, clockLow, driving]
  · rintro - ⟨⟨a, b⟩, held⟩ rfl
    simp [withSleeps, startPins, Event.bracketed, wireHistory, Observer.watch, Observer.sees, Observer.after, Pads.after,
      Pads.modify, Pads.wires, LinePads.wire, clockEdgeBetween, conditionBetween, clockLow, driving]
  · rintro o -
    simp [withSleeps, startPins, Event.bracketed, wireHistory, Observer.afterAll, Observer.after, Pads.after, Pads.modify,
      Pads.wires, LinePads.wire, clockLow, driving]

/-- A STOP (R103). -/
theorem seg_stop :
    Segment outside n (clockLow w z (driving x y u)) (withSleeps stopPins) [.stop] 1 [.condition .stop] := by
  refine ⟨?_, ?_, ?_, ?_⟩
  · simp [withSleeps, stopPins, Event.bracketed, conditionsSeen, Pads.after, Pads.modify, Pads.wires, LinePads.wire,
      conditionBetween, clockLow, driving]
  · rintro ⟨⟨a, b⟩, held⟩ rfl
    simp [withSleeps, stopPins, Event.bracketed, wireHistory, clockEdges, Pads.after, Pads.modify, Pads.wires, LinePads.wire,
      clockEdgeBetween, pulses, clockLow, driving]
  · rintro - ⟨⟨a, b⟩, held⟩ rfl
    simp [withSleeps, stopPins, Event.bracketed, wireHistory, Observer.watch, Observer.sees, Observer.after, Pads.after,
      Pads.modify, Pads.wires, LinePads.wire, clockEdgeBetween, conditionBetween, clockLow, driving]
  · rintro o -
    simp [withSleeps, stopPins, Event.bracketed, wireHistory, Observer.afterAll, Observer.after, Pads.after, Pads.modify,
      Pads.wires, LinePads.wire, clockLow, driving]

/-! ### Runs of bits -/

/-- The pads after a sent bit. -/
theorem pads_bitSent (v : Level) :
    (withSleeps (bitSent v)).foldl Pads.after (clockLow w z (driving x y u)) = clockLow w z (driving x y v) := rfl

/-- The pads after a heard bit: the data pad an input. -/
theorem pads_bitHeard (v : Level) :
    (withSleeps (bitHeard v)).foldl Pads.after (clockLow w z q) = clockLow w z ⟨q.o, false, true, q.own⟩ := rfl

/-- Bits sent one after the other. -/
theorem seg_bitsSent (vs : List Level) :
    Segment outside n (clockLow w z (driving x y u)) (withSleeps (vs.flatMap bitSent)) [] vs.length (vs.map .bit) := by
  induction vs generalizing n u with
  | nil => exact seg_nil n w z _
  | cons v vs ih =>
    have h := (seg_bitSent (outside := outside) n w z x y u v).append (pads_bitSent w z x y u v) (ih _ v)
    simpa [withSleeps, Nat.add_comm] using h

/-- Bits heard one after the other. -/
theorem seg_bitsHeard (vs : List Level) :
    Segment outside n (clockLow w z q) (withSleeps (vs.flatMap bitHeard)) [] vs.length (vs.map .bit) := by
  induction vs generalizing n q with
  | nil => exact seg_nil n w z _
  | cons v vs ih =>
    have h := (seg_bitHeard (outside := outside) n w z q v).append (pads_bitHeard w z q v) (ih _ _)
    simpa [withSleeps, Nat.add_comm] using h

/-! ### The acknowledge and the bytes -/

/-- A sent acknowledge (R106). -/
theorem seg_sack :
    Segment outside n (clockLow w z (driving x y u))
      (withSleeps [.wr .sda false, .wr .scl true, .wr .scl false, .wr .sda true]) [] 1 [.bit false] := by
  have h := (seg_bitSent (outside := outside) n w z x y u false).append (pads_bitSent w z x y u false)
    (seg_wrData _ w z x y false true)
  simpa [withSleeps, bitSent] using h

/-- The pads after a SENDB: the data pad driven again, at the level of the last bit (R121). -/
theorem pads_sendb (b : Byte) (a : Level) :
    (withSleeps (sendbPins b a)).foldl Pads.after (clockLow w z (driving x y u)) =
      clockLow w z (driving false y (b.getLsbD 0)) := rfl

/-- A SENDB (R121, R123). -/
theorem seg_sendb (b : Byte) (a : Level) :
    Segment outside n (clockLow w z (driving x y u)) (withSleeps (sendbPins b a)) [] 9 (seenByte b ++ [.bit a]) := by
  have h1 := seg_bitsSent (outside := outside) n w z x y u (msbFirst b)
  have h2 := h1.append (q := clockLow w z (driving x y (b.getLsbD 0))) rfl (seg_cfgIn _ w z _)
  have h3 := h2.append (q := clockLow w z ⟨b.getLsbD 0, false, true, y⟩) rfl (seg_bitHeard _ w z _ a)
  have h4 := h3.append (q := clockLow w z ⟨b.getLsbD 0, false, true, y⟩) rfl (seg_cfgOut _ w z _)
  simp only [sendbPins, withSleeps_append]
  exact h4

/-- The pads after a RECVB (R122). -/
theorem pads_recvb (b : Byte) :
    (withSleeps (recvbPins b)).foldl Pads.after (clockLow w z q) = clockLow w z (driving false q.own true) := rfl

/-- A RECVB (R122, R123). -/
theorem seg_recvb (b : Byte) :
    Segment outside n (clockLow w z q) (withSleeps (recvbPins b)) [] 9 (seenByte b ++ [.bit false]) := by
  have h1 := seg_cfgIn (outside := outside) n w z q
  have h2 := h1.append (q := clockLow w z ⟨q.o, false, true, q.own⟩) rfl (seg_bitsHeard _ w z _ (msbFirst b))
  have h3 := h2.append (q := clockLow w z ⟨q.o, false, true, q.own⟩) rfl (seg_cfgOut _ w z _)
  have h4 := h3.append (q := clockLow w z (driving false q.own q.o)) rfl (seg_sack _ w z false q.own q.o)
  simp only [recvbPins, withSleeps_append, List.append_assoc] at h4 ⊢
  exact h4

end Sys2Proof.Machine
end

