-- ==== Sys2Proof/Tests/Slice0.lean ====
section
/-! SUPPORT. Small tests: the words of spec/30_encoding.md R73 and the vectors of spec/95_test_vectors.md, and for each
statement with hypotheses states that meet them. -/

namespace Sys2Proof.Tests

open Sys2Proof.Machine

/-! ### Well-formedness: the one check refuses a device address above 127 (R72) -/

theorem test_wellFormed_refuses_device_128 : Instr.wellFormed (.rdreg 0x80 0x08) = false := by decide
theorem test_wellFormed_accepts_device_127 : Instr.wellFormed (.rdreg 0x7F 0xFF) = true := by decide

/-! ### Decoding: each constructor from a word written bit by bit from R70, R71, R73 (`op` then `arg`) -/

theorem test_decode_lnout : decode 0b00000001_00000000_00000001 = .ok (.lnout .sda) := by decide
theorem test_decode_lnin : decode 0b00000010_00000000_00000000 = .ok (.lnin .scl) := by decide
theorem test_decode_lnwr : decode 0b00000011_00000001_00000000 = .ok (.lnwr .scl true) := by decide
theorem test_decode_lnwr_sda_low : decode 0b00000011_00000000_00000001 = .ok (.lnwr .sda false) := by decide
theorem test_decode_lnrd : decode 0b00000100_00000000_00000001 = .ok (.lnrd .sda) := by decide
theorem test_decode_lnrel : decode 0b00000101_00000000_00000000 = .ok (.lnrel .scl) := by decide
theorem test_decode_start : decode 0b00000110_00000000_00000000 = .ok .start := by decide
theorem test_decode_stop : decode 0b00000111_00000000_00000000 = .ok .stop := by decide
theorem test_decode_wbit : decode 0b00001000_00000000_00000001 = .ok (.wbit true) := by decide
theorem test_decode_rbit : decode 0b00001001_00000000_00000000 = .ok .rbit := by decide
theorem test_decode_sack : decode 0b00001010_00000000_00000000 = .ok .sack := by decide
theorem test_decode_cack : decode 0b00001011_00000000_00000000 = .ok .cack := by decide
theorem test_decode_sendb : decode 0b00001100_00000000_10100101 = .ok (.sendb 0xA5) := by decide
theorem test_decode_recvb : decode 0b00001101_00000000_00000000 = .ok .recvb := by decide
theorem test_decode_rdreg : decode 0b00001110_00011101_00001000 = .ok (.rdreg 0x1D 0x08) := by decide
theorem test_decode_dec16 : decode 0b00001111_00010010_00110100 = .ok (.dec16 0x34 0x12) := by decide
theorem test_decode_cleanup : decode 0b00010000_00000000_00000000 = .ok .cleanup := by decide

/-- V1: the illegal words with a reserved opcode. -/
theorem test_reserved_opcodes : decode 0x000000 = .error (.reservedOpcode 0) ∧
    decode 0x110000 = .error (.reservedOpcode 0x11) ∧ decode 0xFF0000 = .error (.reservedOpcode 0xFF) := by decide

/-- V1: the illegal words with a reserved operand bit, one or more per format. -/
theorem test_reserved_operand_bits :
    ([0x060001, 0x070001, 0x0D0100, 0x108000, 0x030200, 0x030002, 0x050002, 0x080002, 0x0C01A5, 0x0E9D08] :
      List CommandWord).all (fun w => decode w == .error (.reservedOperandBit (opField w))) = true := by decide

/-- R81: the encoder gives the words of the examples. -/
theorem test_encode_examples : encode (.rdreg 0x1D 0x08) = 0x0E1D08 ∧ encode (.sendb 0xA5) = 0x0C00A5 ∧
    encode (.lnwr .sda true) = 0x030101 ∧ encode (.wbit true) = 0x080001 ∧ encode (.dec16 0x00 0x80) = 0x0F8000 := by
  decide

/-- R73: the opcode of each row is bits 23:16 of its match. -/
theorem test_rows_opcode : opcodeMap.all (fun r => opField r.pattern == r.op) = true := by decide

/-! ### One step on a small state (spec/95_test_vectors.md) -/

/-- The state after the next step when the host issues `w` and the environment answers `e`. -/
def after (s : State) (w : CommandWord) (e : List Level) : State :=
  match step (State.withFetchWord { s with env := e } 24 w.toNat) with
  | .next t => t
  | .fault _ => s
  | .refused _ => s

/-- The pin events of a trace. -/
def pins (s : State) : List Event := s.trace.filter (fun e => e != .sleep)

/-- From reset, with the lines in the given cells. -/
def withLines (scl sda : LineCell) : State := { State.reset with scl := scl, sda := sda }

/-- V4 row 4. -/
theorem test_lnout : (after (withLines ⟨.out, false⟩ ⟨.inp, true⟩) 0x010001 []).lctl = 0b001110#6 ∧
    (after (withLines ⟨.out, false⟩ ⟨.inp, true⟩) 0x010001 []).trace = [.sleep, .cfgOut .sda, .sleep] := by decide

/-- V7: LNOUT of a released line. -/
theorem test_lnout_released : (after (withLines ⟨.released, false⟩ ⟨.out, true⟩) 0x010000 []).fsr.pack = 0b000111#6 := by
  decide

/-- V4 row 1. -/
theorem test_lnin : (after State.reset 0x020001 []).lctl = 0b000110#6 ∧
    (after State.reset 0x020001 []).responses = [0x000000] := by decide

/-- V4 row 6. -/
theorem test_lnwr : (after State.reset 0x030100 []).lctl = 0b001111#6 ∧
    (after State.reset 0x030100 []).trace = [.sleep, .wr .scl true, .sleep] := by decide

/-- V5 (b). -/
theorem test_lnwr_on_input : (after (withLines ⟨.out, false⟩ ⟨.inp, true⟩) 0x030001 []).responses = [0x100000] ∧
    (after (withLines ⟨.out, false⟩ ⟨.inp, true⟩) 0x030001 []).fsr.pack = 0b100011#6 := by decide

/-- V4 row 3. -/
theorem test_lnrd : (after (withLines ⟨.out, false⟩ ⟨.inp, true⟩) 0x040001 [true]).responses = [0x000001] := by decide

/-- V5 (a). -/
theorem test_lnrd_on_output : (after State.reset 0x040001 []).responses = [0x200000] ∧
    (after State.reset 0x040001 []).fsr.pack = 0b100101#6 ∧ (after State.reset 0x040001 []).trace = [] := by decide

/-- V7: the first LNREL, no sleep. -/
theorem test_lnrel : (after State.reset 0x050000 []).trace = [.rel .scl] ∧
    (after State.reset 0x050000 []).lctl = 0b011010#6 := by decide

/-- V7: a second LNREL. -/
theorem test_lnrel_twice : (after (withLines ⟨.released, false⟩ ⟨.out, true⟩) 0x050000 []).trace = [] := by decide

/-- V10: START from the reset levels. -/
theorem test_start : pins (after State.reset 0x060000 []) = [.wr .sda true, .wr .scl true, .wr .sda false, .wr .scl false] ∧
    (after State.reset 0x060000 []).lctl = 0b001100#6 := by decide

/-- V6: START with the clock an input faults at its second μop. -/
theorem test_start_clock_input : pins (after (withLines ⟨.inp, false⟩ ⟨.out, true⟩) 0x060000 []) = [.wr .sda true] ∧
    (after (withLines ⟨.inp, false⟩ ⟨.out, true⟩) 0x060000 []).fsr.pack = 0b000011#6 := by decide

/-- V10: STOP from clock high, data high. -/
theorem test_stop : pins (after (withLines ⟨.out, true⟩ ⟨.out, true⟩) 0x070000 []) =
      [.wr .sda false, .wr .scl true, .wr .sda true, .wr .scl false] ∧
    (after (withLines ⟨.out, true⟩ ⟨.out, true⟩) 0x070000 []).lctl = 0b001110#6 := by decide

/-- V11 row 1. -/
theorem test_wbit : pins (after State.reset 0x080000 []) = [.wr .sda false, .wr .scl true, .wr .scl false] ∧
    (after State.reset 0x080000 []).lctl = 0b001100#6 := by decide

/-- V11 row 3. -/
theorem test_rbit : pins (after State.reset 0x090000 [false]) =
      [.cfgIn .sda, .wr .scl true, .rd .sda false, .wr .scl false] ∧
    (after State.reset 0x090000 [false]).lctl = 0b000110#6 := by decide

/-- V12 row 4. -/
theorem test_sack : pins (after State.reset 0x0A0000 []) =
      [.wr .sda false, .wr .scl true, .wr .scl false, .wr .sda true] ∧
    (after State.reset 0x0A0000 []).lctl = 0b001110#6 := by decide

/-- V12 row 5, not acknowledged. -/
theorem test_cack : (after State.reset 0x0B0000 [true]).responses = [0x000001] ∧
    (after State.reset 0x0B0000 [true]).lctl = 0b000110#6 := by decide

/-- V16: SENDB 0x3A, acknowledged. -/
theorem test_sendb : (after State.reset 0x0C003A [false]).responses = [0x000000] ∧
    (after State.reset 0x0C003A [false]).lctl = 0b001100#6 := by decide

/-- V30: SENDB makes 60 sleep calls. -/
theorem test_sendb_sleeps : sleepCalls (after State.reset 0x0C00A5 [true]).trace = 60 := by decide +kernel

/-- V18, second row. -/
theorem test_recvb : (after State.reset 0x0D0000 [false, true, false, true, true, false, true, false]).responses =
    [0x00005A] := by decide

/-- V22: one not-acknowledge. -/
theorem test_rdreg : (after State.reset 0x0E1D08
    [false, true, false, false, true, false, true, true, false, true, false]).responses = [0x02005A] := by decide +kernel

/-- V24 (b). -/
theorem test_rdreg_clock_input : pins (after (withLines ⟨.inp, false⟩ ⟨.out, true⟩) 0x0E1D08 []) = [.wr .sda false] ∧
    (after (withLines ⟨.inp, false⟩ ⟨.out, true⟩) 0x0E1D08 []).lctl = 0b001000#6 := by decide

/-- V25: the operands are not swapped. -/
theorem test_dec16 : (after State.reset 0x0F1234 []).responses = [0x001234] ∧ decodeSigned16 0x34 0x12 = 4660 := by decide

/-- S1: the source's four values. -/
theorem test_decodeSigned16 : decodeSigned16 0x00 0x80 = -32768 ∧ decodeSigned16 0xFF 0x7F = 32767 ∧
    decodeSigned16 0x00 0x00 = 0 ∧ decodeSigned16 0xFF 0xFF = -1 := by decide

/-- V26. -/
theorem test_cleanup : (after State.reset 0x100000 []).trace = [.rel .scl, .rel .sda] ∧
    (after State.reset 0x100000 []).lctl = 0b110010#6 := by decide

/-- V2: an illegal word from reset. -/
theorem test_illegal_word : (after State.reset 0x060001 []).responses = [0x400000] ∧
    (after State.reset 0x060001 []).fsr.pack = 0b001001#6 := by decide

/-- The faulted state of V27. -/
def afterCleanupFault : State :=
  { withLines ⟨.released, false⟩ ⟨.released, true⟩ with fsr := ⟨true, 3, .sda⟩ }

/-- V27: an illegal word gets the pending code. -/
theorem test_pending_code : (after afterCleanupFault 0x000000 []).responses = [0x300000] ∧
    (after afterCleanupFault 0x0F1234 []).responses = [0x001234] := by decide

/-- R190: reset between two μops abandons the command without a response. -/
theorem test_reset_mid_command :
    (match Sys2Proof.core.run 4 { State.reset with host := [.issueStepped 0x060000, .wait, .wait, .reset] } with
      | .next t => t.seq == .idle && t.responses == [] && t.lctl == 0b001110#6 && pins t == [.wr .sda true, .wr .scl true]
      | .fault _ => false
      | .refused _ => false) = true := by decide

/-- R27: the second step of a stepped START performs its first μop and no other. -/
theorem test_one_uop_a_step :
    (match Sys2Proof.core.run 2 { State.reset with host := [.issueStepped 0x060000] } with
      | .next t => t.seq == .busy ⟨0x060000, 1, 0, 0, false⟩ && t.trace == [.sleep, .wr .sda true, .sleep]
      | .fault _ => false
      | .refused _ => false) = true := by decide

/-! ### What an observer sees (R108) -/

/-- A clock edge that a change of direction makes: LNIN SCL on a bus that is high. -/
theorem test_edge_of_lnin : edgesObserved (fun _ _ => true) State.reset.pads (after State.reset 0x020000 []).trace =
    [.rising] := by decide

/-- A direction change of the data line while the clock is high is a condition. -/
theorem test_condition_of_lnin :
    observed (fun _ _ => true) (withLines ⟨.out, true⟩ ⟨.out, false⟩).pads
      (after (withLines ⟨.out, true⟩ ⟨.out, false⟩) 0x020001 []).trace = [.condition .stop] := by decide

/-- R102: a START entered with the clock high and the data line low puts a spurious STOP on the wire first. -/
theorem test_spurious_stop :
    observed (fun _ _ => true) (withLines ⟨.out, true⟩ ⟨.out, false⟩).pads
      (after (withLines ⟨.out, true⟩ ⟨.out, false⟩) 0x060000 []).trace = [.condition .stop, .condition .start] := by decide

/-- R121, R123: the bits of 0x3A and the acknowledge slot, left high. -/
theorem test_bits_of_sendb :
    observed (fun _ _ => true) State.reset.pads (after State.reset 0x0C003A [true]).trace =
      [false, false, true, true, true, false, true, false, true].map .bit := by decide +kernel

/-- U19: a reset with the clock high and the data line low shows a STOP if the data line rises first, none if the clock
falls first. -/
theorem test_condition_at_reset :
    observedOver (fun _ _ => true) (withLines ⟨.out, true⟩ ⟨.out, false⟩).pads [.reset [⟨true, true⟩]] =
      [.condition .stop] ∧
    observedOver (fun _ _ => true) (withLines ⟨.out, true⟩ ⟨.out, false⟩).pads [.reset [⟨false, false⟩]] = [] := by decide

/-! ### States that meet the hypotheses of the statements -/

def sdaIn : State := withLines ⟨.out, false⟩ ⟨.inp, true⟩
def sdaReleased : State := withLines ⟨.out, false⟩ ⟨.released, true⟩
def sclIn : State := withLines ⟨.inp, false⟩ ⟨.out, true⟩
def sclReleased : State := withLines ⟨.released, false⟩ ⟨.out, true⟩
def bothReleased : State := withLines ⟨.released, false⟩ ⟨.released, true⟩
/-- A START in progress, two μops done. -/
def midStart : State := { State.reset with seq := .busy ⟨0x060000, 2, 0, 0, false⟩ }

theorem reset_ready : State.reset.Ready := ⟨rfl, rfl⟩
theorem reset_bothOut : State.reset.BothOut := ⟨rfl, rfl⟩
theorem sdaIn_ready : sdaIn.Ready := ⟨rfl, rfl⟩
theorem sdaReleased_ready : sdaReleased.Ready := ⟨rfl, rfl⟩
theorem sclIn_ready : sclIn.Ready := ⟨rfl, rfl⟩
theorem sclReleased_ready : sclReleased.Ready := ⟨rfl, rfl⟩
theorem bothReleased_ready : bothReleased.Ready := ⟨rfl, rfl⟩

theorem afterCleanupFault_inv : afterCleanupFault.Inv :=
  ⟨by unfold Fsr.Good afterCleanupFault; decide, trivial, fun r h => (nomatch h)⟩

theorem midStart_inv : midStart.Inv :=
  ⟨by unfold Fsr.Good midStart State.reset resetFsr; decide, ⟨.start, by decide, by decide, by decide⟩, fun r h => (nomatch h)⟩

/-- The two clauses: a reset in the middle of a command; a step from a faulted state with released lines. -/
theorem witness_ResetAloneUnlatches :
    { midStart with host := [.reset] }.host = .reset :: [] ∧
    afterCleanupFault.Inv ∧ afterCleanupFault.NoReset ∧ step afterCleanupFault = .next afterCleanupFault ∧
    afterCleanupFault.fsr.fault = true ∧ afterCleanupFault.dir .scl = .released ∧ afterCleanupFault.dir .sda = .released :=
  ⟨rfl, afterCleanupFault_inv, fun _ h => (nomatch h), rfl, rfl, rfl, rfl⟩

/-- A reset in the middle of a START, and with the lines released. -/
theorem witness_ResetAtThePins : { midStart with host := [.reset] }.host = .reset :: [] ∧
    { afterCleanupFault with host := [.reset, .wait] }.host = .reset :: [.wait] := ⟨rfl, rfl⟩
theorem witness_PadsFollowEveryRun : Sys2Proof.core.run 1 { midStart with host := [.reset] } =
    .next { State.reset with host := [] } := rfl

theorem witness_DecodeOfEncode : Instr.wellFormed (.rdreg 0x7F 0xFF) = true := by decide
theorem witness_EncodeOfDecode : decode 0x0E7FFF = .ok (.rdreg 0x7F 0xFF) := by decide
theorem witness_WordIsARowsCommandByItsMask : Instr.row .cleanup ∈ opcodeMap := by decide
theorem witness_EveryWordIsOneCommandOrIllegal : Instr.row (.dec16 0 0) ∈ opcodeMap ∧
    (0x0FFFFF : CommandWord) &&& (Instr.row (.dec16 0 0)).mask = (Instr.row (.dec16 0 0)).pattern := by decide
theorem witness_AddressBytes : (0x7F : Byte).toNat < 128 := by decide
theorem witness_AccumulatorSpellsTheSamples : [true, true, false, false, false, false, true, true].length ≤ 8 := by decide

/-- LNOUT and LNIN: a line not released, a released one. -/
theorem witness_LnoutConfiguresOutput :
    sdaIn.Ready ∧ sdaIn.dir .sda ≠ .released ∧ sclReleased.Ready ∧ sclReleased.dir .scl = .released :=
  ⟨sdaIn_ready, by decide, sclReleased_ready, rfl⟩
theorem witness_LninConfiguresInput :
    State.reset.Ready ∧ State.reset.dir .scl ≠ .released ∧ sdaReleased.Ready ∧ sdaReleased.dir .sda = .released :=
  ⟨reset_ready, by decide, sdaReleased_ready, rfl⟩

/-- LNWR and LNRD: an output, an input, a released line. -/
theorem witness_LnwrWritesAnOutput :
    State.reset.Ready ∧ State.reset.dir .sda = .out ∧ sdaIn.Ready ∧ sdaIn.dir .sda = .inp ∧
    sdaReleased.Ready ∧ sdaReleased.dir .sda = .released :=
  ⟨reset_ready, rfl, sdaIn_ready, rfl, sdaReleased_ready, rfl⟩
theorem witness_LnrdReadsAnInput :
    { sdaIn with env := [true] }.Ready ∧ { sdaIn with env := [true] }.dir .sda = .inp ∧
    { sdaIn with env := [true] }.env = true :: [] ∧
    State.reset.Ready ∧ State.reset.dir .scl = .out ∧ sclReleased.Ready ∧ sclReleased.dir .scl = .released :=
  ⟨⟨rfl, rfl⟩, rfl, rfl, reset_ready, rfl, sclReleased_ready, rfl⟩

/-- LNREL and CLEANUP: a held line and a released one, the latter in the faulted state. -/
theorem witness_LnrelReleasesOnce :
    State.reset.seq = .idle ∧ State.reset.dir .scl ≠ .released ∧
    afterCleanupFault.seq = .idle ∧ afterCleanupFault.dir .scl = .released := ⟨rfl, by decide, rfl, rfl⟩
theorem witness_CleanupReleasesBothPins : sclReleased.seq = .idle ∧ afterCleanupFault.seq = .idle := ⟨rfl, rfl⟩

/-- The clauses of `DataWriteFaults`: data an input, data released, clock an input, clock released. -/
theorem witness_dataWriteFaults :
    sdaIn.Ready ∧ sdaIn.sda.dir = .inp ∧ sdaReleased.Ready ∧ sdaReleased.sda.dir = .released ∧
    sclIn.Ready ∧ sclIn.sda.dir = .out ∧ sclIn.scl.dir = .inp ∧
    sclReleased.Ready ∧ sclReleased.sda.dir = .out ∧ sclReleased.scl.dir = .released :=
  ⟨sdaIn_ready, rfl, sdaReleased_ready, rfl, sclIn_ready, rfl, rfl, sclReleased_ready, rfl, rfl⟩

theorem witness_StartSequence : State.reset.Ready ∧ State.reset.BothOut := ⟨reset_ready, reset_bothOut⟩
theorem witness_StopSequence : State.reset.Ready ∧ State.reset.BothOut := ⟨reset_ready, reset_bothOut⟩
theorem witness_WbitSequence : State.reset.Ready ∧ State.reset.BothOut := ⟨reset_ready, reset_bothOut⟩
theorem witness_SackSequence : State.reset.Ready ∧ State.reset.BothOut := ⟨reset_ready, reset_bothOut⟩
theorem witness_SendbSequence : { State.reset with env := [true] }.Ready ∧ { State.reset with env := [true] }.BothOut ∧
    { State.reset with env := [true] }.env = true :: [] := ⟨⟨rfl, rfl⟩, ⟨rfl, rfl⟩, rfl⟩

/-- The clauses of `DataReleaseFaults` and of the sequences that begin with a release: entered as an input, as an output. -/
theorem witness_dataReleaseFaults :
    sdaReleased.Ready ∧ sdaReleased.sda.dir = .released ∧
    sclIn.Ready ∧ sclIn.sda.dir ≠ .released ∧ sclIn.scl.dir = .inp ∧
    sclReleased.Ready ∧ sclReleased.sda.dir ≠ .released ∧ sclReleased.scl.dir = .released :=
  ⟨sdaReleased_ready, rfl, sclIn_ready, by decide, rfl, sclReleased_ready, by decide, rfl⟩

theorem witness_RbitAndCackSequence : (Instr.cack = .rbit ∨ Instr.cack = .cack) ∧ sdaIn.Ready ∧ sdaIn.scl.dir = .out ∧
    sdaIn.sda.dir ≠ .released := ⟨.inr rfl, sdaIn_ready, rfl, by decide⟩
theorem witness_RecvbSequence : { sdaIn with env := msbFirst 0xC3 }.Ready ∧ { sdaIn with env := msbFirst 0xC3 }.scl.dir = .out ∧
    { sdaIn with env := msbFirst 0xC3 }.sda.dir ≠ .released ∧ { sdaIn with env := msbFirst 0xC3 }.env = msbFirst 0xC3 ++ [] :=
  ⟨⟨rfl, rfl⟩, rfl, by decide, rfl⟩
theorem witness_RdregSequence :
    { State.reset with env := false :: true :: false :: (msbFirst 0x5A ++ []) }.Ready ∧
    { State.reset with env := false :: true :: false :: (msbFirst 0x5A ++ []) }.BothOut := ⟨⟨rfl, rfl⟩, ⟨rfl, rfl⟩⟩
theorem witness_RdregIsTheCompositionOfItsSteps : State.reset.Ready ∧ State.reset.BothOut := ⟨reset_ready, reset_bothOut⟩
theorem witness_Dec16AnswersTheWord : State.reset.seq = .idle ∧ afterCleanupFault.seq = .idle := ⟨rfl, rfl⟩
theorem witness_Dec16Laws : decodeSigned16 0x00 0x80 = -32768 ∧ decodeSigned16 0xFF 0x7F = 32767 := by decide

theorem witness_UseAfterCleanupFaults : bothReleased.Ready ∧ bothReleased.scl.dir = .released ∧
    bothReleased.sda.dir = .released ∧ performedInFault (.rdreg 0x1D 0x08) = false := ⟨bothReleased_ready, rfl, rfl, rfl⟩

/-- A reserved opcode, the highest legal one with a reserved bit, the one format without reserved bits excluded. -/
theorem witness_IllegalWordRaisesTheFault :
    { State.reset with host := [.issue 0x110000] }.seq = .idle ∧ State.reset.fsr.fault = false ∧
    { afterCleanupFault with host := [.issue 0x108000] }.seq = .idle ∧ afterCleanupFault.fsr.fault = true ∧
    IllegalCommandWord 0x110000 ∧ IllegalCommandWord 0x108000 ∧ ¬ IllegalCommandWord 0x0FFFFF :=
  ⟨rfl, rfl, rfl, rfl, by unfold IllegalCommandWord; decide, by unfold IllegalCommandWord; decide,
    by unfold IllegalCommandWord; decide⟩

/-- A performed command, a refused one, an illegal word, in the faulted state. -/
theorem witness_FaultedStateAnswersThePendingCode :
    afterCleanupFault.seq = .idle ∧ afterCleanupFault.fsr.fault = true ∧
    decode 0x100000 = .ok .cleanup ∧ performedInFault .cleanup = true ∧
    decode 0x060000 = .ok .start ∧ performedInFault .start = false ∧ decode 0x000000 = .error (.reservedOpcode 0) :=
  ⟨rfl, rfl, by decide, rfl, by decide, rfl, by decide⟩

theorem witness_DirectionDiscipline : sdaIn.Ready ∧ sdaIn.scl.dir = .out ∧ addressesClockOnly .recvb = false ∧
    needsSdaDir .recvb sdaIn.sda.dir = true ∧ needsSdaDir .start sdaIn.sda.dir = false := ⟨sdaIn_ready, rfl, rfl, rfl, rfl⟩

theorem witness_StepRunsTheDecodedCommand : { State.reset with host := [.issue 0x060000] }.seq = .idle ∧
    { State.reset with host := [.issue 0x060000] }.host = .issue 0x060000 :: [] ∧ decode 0x060000 = .ok .start :=
  ⟨rfl, rfl, by decide⟩
theorem witness_OneResponsePerWord : { State.reset with host := [.issue 0x000000] }.seq = .idle ∧
    { State.reset with host := [.issue 0x000000] }.host = .issue 0x000000 :: [] := ⟨rfl, rfl⟩
theorem witness_IdleBlockDoesNothingByItself : State.reset.seq = .idle ∧ State.reset.host = [] ∧
    { State.reset with host := [.wait] }.host = .wait :: [] := ⟨rfl, rfl, rfl⟩
theorem witness_BusyBlockTakesNoWord :
    { midStart with host := [.issue 0x070000] }.seq = .busy ⟨0x060000, 2, 0, 0, false⟩ ∧
    { midStart with host := [.issue 0x070000] }.host = .issue 0x070000 :: [] ∧
    { midStart with host := [.issueStepped 0x070000] }.host = .issueStepped 0x070000 :: [] := ⟨rfl, rfl, rfl⟩
theorem witness_SteppedCommandEqualsWholeCommand : State.reset.seq = .idle ∧ 144 ≤ 144 := ⟨rfl, le_refl _⟩
/-- The three ends of acceptance: at a μop, at once, and the words answered as in the whole-command reading. -/
theorem witness_AcceptanceStopsBeforeTheFirstUop :
    State.reset.seq = .idle ∧ decode 0x060000 = .ok .start ∧ State.reset.fsr.fault = false ∧
    decode 0x100000 = .ok .cleanup ∧ afterCleanupFault.seq = .idle ∧ afterCleanupFault.fsr.fault = true ∧
    performedInFault .cleanup = true ∧ performedInFault .start = false ∧ decode 0x000000 = .error (.reservedOpcode 0) :=
  ⟨rfl, by decide, rfl, by decide, rfl, rfl, rfl, rfl, by decide⟩

/-- A START whose third μop violates, its data line being an input. -/
def midStartSdaIn : State := { midStart with sda := ⟨.inp, true⟩ }
/-- A START before its last μop. -/
def lateStart : State := { State.reset with seq := .busy ⟨0x060000, 3, 0, 0, false⟩ }

/-- A μop that violates, one with another after it, and a last one. -/
theorem witness_OneStepIsOneMicroOperation :
    midStart.Inv ∧ midStart.NoReset ∧ midStart.seq = .busy ⟨0x060000, 2, 0, 0, false⟩ ∧
    startUops[2]? = some (.wr .sda false) ∧ (Uop.wr .sda false).violation midStart = none ∧
    midStartSdaIn.Inv ∧ midStartSdaIn.NoReset ∧ (Uop.wr .sda false).violation midStartSdaIn = some .writeOnNonOutput ∧
    lateStart.Inv ∧ lateStart.NoReset ∧ startUops[3]? = some (.wr .scl false) ∧
    (Uop.wr .scl false).violation lateStart = none :=
  ⟨midStart_inv, fun _ h => (nomatch h), rfl, rfl, rfl, midStart_inv, fun _ h => (nomatch h), rfl,
    ⟨midStart_inv.1, ⟨.start, by decide, by decide, by decide⟩, midStart_inv.2.2⟩, fun _ h => (nomatch h), rfl, rfl⟩

theorem witness_EveryStepKeepsTheInvariant : midStart.Inv ∧
    step midStart = .next (midStart.stepBusy ⟨0x060000, 2, 0, 0, false⟩) := ⟨midStart_inv, rfl⟩
theorem witness_SampledLevelsSteerNothing : State.reset.seq = .idle := rfl
theorem witness_SleepsBracketEveryPinEvent : step midStart = .next (midStart.stepBusy ⟨0x060000, 2, 0, 0, false⟩) := rfl
theorem witness_SleepCallsPerCommand : State.reset.Ready ∧ exec (.dec16 0 0) State.reset =
    .next { State.reset with responses := [0x000000] } ∧ State.reset.fsr.fault = false := ⟨reset_ready, rfl, rfl⟩
theorem witness_PadsFollowTheTrace : midStart.NoReset ∧
    step midStart = .next (midStart.stepBusy ⟨0x060000, 2, 0, 0, false⟩) := ⟨fun _ h => (nomatch h), rfl⟩
/-- Each row of R101 entered with the clock low: the data line an output, and an input where that is allowed. -/
theorem witness_ConditionsOfThePrimitives : isBusCommand .start = true ∧ State.reset.Ready ∧
    State.reset.scl = ⟨.out, false⟩ ∧ needsSdaDir .start State.reset.sda.dir = true ∧
    exec .start State.reset = .next (after State.reset 0x060000 []) ∧
    (after State.reset 0x060000 []).trace = State.reset.trace ++ withSleeps startPins ∧
    sdaIn.Ready ∧ sdaIn.scl = ⟨.out, false⟩ ∧ needsSdaDir .rbit sdaIn.sda.dir = true ∧
    needsSdaDir .cack sdaIn.sda.dir = true ∧ needsSdaDir .recvb sdaIn.sda.dir = true :=
  ⟨rfl, reset_ready, rfl, rfl, rfl, rfl, sdaIn_ready, rfl, rfl, rfl, rfl⟩
theorem witness_LineCommandsOnTheWire : isLineCommand (.lnin .scl) = true ∧ State.reset.seq = .idle ∧
    isLineCommand (.lnrel .sda) = true ∧ afterCleanupFault.seq = .idle := ⟨rfl, rfl, rfl, rfl⟩

/-- From `s` the command runs to its end with the data line as it needs it, and the outside that leaves the lines high is a
slave that keeps the rules. -/
def silentSlaveKeepsRules (s : State) (i : Instr) : Bool :=
  match exec i s with
  | .next t => needsSdaDir i s.sda.dir && slaveKeepsRules (fun _ _ => true) 0 s.pads t.trace
  | .fault _ => false
  | .refused _ => false

/-- One command for each clause; the trace at reset is empty. -/
theorem witness_BitsAndConditionsSeen :
    { State.reset with env := List.replicate 8 true }.Ready ∧
    { State.reset with env := List.replicate 8 true }.scl = ⟨.out, false⟩ ∧
    [Instr.start, .stop, .wbit true, .sack, .rbit, .cack, .sendb 0xA5, .recvb].all
      (silentSlaveKeepsRules { State.reset with env := List.replicate 8 true }) = true :=
  ⟨⟨rfl, rfl⟩, rfl, by decide +kernel⟩
theorem witness_RdregInTheUsualShorthand :
    { State.reset with env := List.replicate 11 true }.Ready ∧
    { State.reset with env := List.replicate 11 true }.scl = ⟨.out, false⟩ ∧
    { State.reset with env := List.replicate 11 true }.sda = ⟨.out, true⟩ ∧
    silentSlaveKeepsRules { State.reset with env := List.replicate 11 true } (.rdreg 0x7F 0xFF) = true :=
  ⟨⟨rfl, rfl⟩, rfl, rfl, by decide +kernel⟩

theorem witness_ObserverRecoversTheByte : State.reset.Ready ∧ State.reset.BothOut ∧
    { sdaIn with env := msbFirst 0xC3 }.Ready ∧ { sdaIn with env := msbFirst 0xC3 }.scl.dir = .out ∧
    { sdaIn with env := msbFirst 0xC3 }.sda.dir ≠ .released ∧ { sdaIn with env := msbFirst 0xC3 }.env = msbFirst 0xC3 ++ [] :=
  ⟨reset_ready, reset_bothOut, ⟨rfl, rfl⟩, rfl, by decide, rfl⟩
theorem witness_ReacquiredLevelIsNeverClocked : isBusCommand .start = true ∧ State.reset.Ready ∧
    exec .start State.reset = .next (after State.reset 0x060000 []) ∧
    (after State.reset 0x060000 []).trace = State.reset.trace ++ withSleeps startPins := ⟨rfl, reset_ready, rfl, rfl⟩
theorem witness_WireDuringRdreg : State.reset.Ready ∧ State.reset.scl = ⟨.out, false⟩ ∧ State.reset.sda = ⟨.out, true⟩ :=
  ⟨reset_ready, rfl, rfl⟩

end Sys2Proof.Tests
end

section
/-! LAWS and PROOF. Facts about what the platform fixes, whatever the free values are (spec/00_scope.md R6), and the
statement of the family 00_scope. -/

namespace Sys2Proof.Config

/-- Numerator and denominator are each one more than a free number, so no choice of them makes `HALF` zero (log 10). -/
theorem half_pos : 0 < half :=
  div_pos (Nat.cast_add_one_pos halfNumerator) (Nat.cast_add_one_pos halfDenominator)

/-- The data pin's handle is counted among those that are not the clock's: a place below the clock's handle keeps its
number, one at or above it moves up by one and so passes the clock's handle (R6, R51). -/
theorem pin_scl_ne_pin_sda : pin .scl ≠ pin .sda := by
  rcases Nat.lt_or_ge pinSdaIndex pinScl with below | above
  · simpa only [pin, if_pos below] using below.ne'
  · simpa only [pin, if_neg above.not_gt] using (Nat.lt_succ_of_le above).ne

end Sys2Proof.Config

namespace Sys2Proof.Machine

/-- Settles O5: `HALF` and the pins by the laws of the free values, `T` and the table of R11 by their definitions. -/
theorem eventsAreCollaboratorCalls : Obligations.EventsAreCollaboratorCalls :=
  ⟨Config.half_pos, rfl, Config.pin_scl_ne_pin_sda, rfl, fun _ _ => ⟨rfl, rfl, rfl, rfl, rfl⟩⟩

end Sys2Proof.Machine
end

section
/-! LAWS. The operand field of a legal word (spec/30_encoding.md R71, R72), and that a legal word is the word of its command. -/

namespace Sys2Proof

@[simp] theorem lineOfBit_bit (b : Bool) : (lineOfBit b).bit = b := by cases b <;> rfl

section
variable {w mask pattern : CommandWord}

/-- The operand bits a row's mask covers are 0 in every word of the row, as in its pattern (R73, R76). -/
theorem argField_getElem_of_masked (h : w &&& mask = pattern) (hp : argField pattern = 0) (j : Nat) (hj : j < 16)
    (hm : mask.getLsbD j = true) : (argField w)[j] = false := by
  have hw : (argField pattern)[j] = (argField w)[j] := by simp [argField, ← h, hm]
  simpa [hp] using hw.symm

/-- Format Z: every operand bit is reserved (R71). -/
theorem argField_eq_zero (h : w &&& 0xFFFFFF = pattern) (hp : argField pattern = 0) : argField w = 0 := by
  have hw : w = pattern := by rwa [show (0xFFFFFF : CommandWord) = BitVec.allOnes 24 from rfl, BitVec.and_allOnes] at h
  rw [hw, hp]

/-- Formats L and B1: every operand bit but the lowest is reserved (R71). -/
theorem argField_eq_lowBit (h : w &&& 0xFFFFFE = pattern) (hp : argField pattern = 0) :
    argField w = (BitVec.ofBool ((argField w).getLsbD 0)).setWidth 16 := by
  have masked := argField_getElem_of_masked h hp
  ext j hj
  interval_cases j <;> simp [masked]

end

/-- The pattern of a row is its opcode above sixteen zeros (R73). -/
theorem argField_pattern (i : Instr) : argField i.row.pattern = 0 := by cases i <;> simp [Instr.row, argField]

/-- The opcode of a legal word is its command's. -/
theorem opField_eq_opcode {w : CommandWord} {i : Instr} (h : decode w = .ok i) : opField w = i.opcode := by
  obtain ⟨hf, -⟩ := decode_ok_iff.1 h
  apply BitVec.eq_of_toNat_eq
  unfold commandOfFields at hf
  split at hf <;> cases hf <;> assumption

/-- Each bit of the operand field of a legal word is one the row's mask covers, which is 0, or one of an operand (R71). -/
theorem argField_eq_operandField {w : CommandWord} {i : Instr} (h : decode w = .ok i) : argField w = i.operandField := by
  obtain ⟨hf, hm⟩ := decode_ok_iff.1 h
  have hp := argField_pattern i
  have masked := argField_getElem_of_masked hm hp
  unfold commandOfFields at hf
  split at hf <;> cases hf <;> simp only [Instr.operandField, lineOfBit_bit]
  -- Formats L and B1, format Z, and bit by bit the formats LV, B8, A and W; the cases are in the order of the opcodes.
  case h_1 | h_2 | h_4 | h_5 | h_8 => exact argField_eq_lowBit hm hp
  case h_6 | h_7 | h_9 | h_10 | h_11 | h_13 | h_16 => exact argField_eq_zero hm hp
  all_goals
    simp only [Instr.row] at masked
    ext j hj
    simp only [BitVec.getElem_or, BitVec.getElem_shiftLeft, BitVec.getElem_setWidth, BitVec.getLsbD_setWidth,
      BitVec.getLsbD_extractLsb', BitVec.getLsbD_ofBool]
    interval_cases j <;> simp [masked]

/-- A legal word is the word of the command it decodes to (R70, R71). -/
theorem encode_of_decode {w : CommandWord} {i : Instr} (h : decode w = .ok i) : encode i = w :=
  word_ext_fields (by rw [opField_encode, opField_eq_opcode h]) (by rw [argField_encode, argField_eq_operandField h])

end Sys2Proof
end

section
/-! LAWS. The packed registers: the bits of `LCTL`, of `FSR` and of a response word (spec/10_state.md R24, R25;
spec/30_encoding.md R75). -/

namespace Sys2Proof.Machine

/-- `SDA_REL SCL_REL SDA_OE SCL_OE SDA_LATCH SCL_LATCH`, bit by bit (R24). -/
theorem lctl_getLsbD (s : State) (k : Nat) : s.lctl.getLsbD k =
    match k with
    | 0 => s.latch .scl
    | 1 => s.latch .sda
    | 2 => s.dir .scl == .out
    | 3 => s.dir .sda == .out
    | 4 => s.dir .scl == .released
    | 5 => s.dir .sda == .released
    | _ + 6 => false := by
  unfold State.lctl
  change BitVec.getLsbD (w := 1 + 1 + 1 + 1 + 1 + 1) _ k = _
  simp only [BitVec.getLsbD_append, BitVec.getLsbD_ofBool, State.latch, State.dir, State.cell, LineCell.oe, LineCell.rel]
  rcases k with _ | _ | _ | _ | _ | _ | k <;> simp

/-- `FLINE FCODE[3:0] FAULT`, bit by bit (R25). -/
theorem fsr_pack_getLsbD (f : Fsr) (k : Nat) : f.pack.getLsbD k =
    match k with
    | 0 => f.fault
    | k + 1 => if k < 4 then f.fcode.getLsbD k else decide (k = 4) && f.fline.bit := by
  unfold Fsr.pack
  change BitVec.getLsbD (w := 1 + 4 + 1) _ k = _
  simp only [BitVec.getLsbD_append, BitVec.getLsbD_ofBool]
  rcases k with _ | k
  · simp
  · by_cases hk : k < 4
    · simp [hk]
    · simp [hk, show k - 4 = 0 ↔ k = 4 by omega]

/-- FCODE stands in bits 4:1 (R25). -/
theorem fsr_pack_fcode (f : Fsr) : f.pack.extractLsb' 1 4 = f.fcode := by
  ext j hj
  simp only [BitVec.getElem_extractLsb', fsr_pack_getLsbD, Nat.add_comm 1 j, hj, if_true, BitVec.getLsbD_eq_getElem]

section
variable (fcode : BitVec 4) (nack : BitVec 3) (value : BitVec 16)

/-- VALUE stands in bits 15:0 (R75). -/
theorem responseWord_value : (responseWord fcode nack value).extractLsb' 0 16 = value := by
  ext j hj
  have h20 : j < 20 := by omega
  have h24 : j < 24 := by omega
  simp [responseWord, hj, h20, h24]

/-- NACK stands in bits 18:16 (R75). -/
theorem responseWord_nack : (responseWord fcode nack value).extractLsb' 16 3 = nack := by
  ext j hj
  have h20 : 16 + j < 20 := by omega
  have h24 : 16 + j < 24 := by omega
  simp [responseWord, hj, h20, h24]

/-- The reserved bit of a response is 0 (R75). -/
theorem responseWord_bit19 : (responseWord fcode nack value).getLsbD 19 = false := by simp [responseWord]

/-- FCODE stands in bits 23:20 (R75). -/
theorem responseWord_fcode : (responseWord fcode nack value).extractLsb' 20 4 = fcode := by
  ext j hj
  have h24 : 20 + j < 24 := by omega
  have hn : nack.getLsbD (20 + j - 16) = false := BitVec.getLsbD_of_ge _ _ (by omega)
  have hv : value.getLsbD (20 + j) = false := BitVec.getLsbD_of_ge _ _ (by omega)
  simp [responseWord, h24, hn, hv, BitVec.getLsbD_eq_getElem hj]

end

/-- Settles O1: each entry of the table of R33 is a field of `State.reset`. -/
theorem resetStateIsTheStopEndState : Obligations.ResetStateIsTheStopEndState :=
  ⟨rfl, rfl, rfl, rfl, by decide, rfl, by decide, rfl, rfl⟩

/-- Settles O3: the bits of `LCTL` by their law; no direction is both `Released` and `Out`. -/
theorem lctlFieldsGiveTheLines : Obligations.LctlFieldsGiveTheLines := by
  intro s
  simp only [lctl_getLsbD, beq_iff_eq, iff_self, true_and]
  have exclusive : ∀ l, ¬ (s.dir l = .released ∧ s.dir l = .out) := fun l ⟨hr, ho⟩ => by simp [hr] at ho
  exact ⟨exclusive .scl, exclusive .sda, by decide⟩

/-- Settles O4: the fields of `FSR` and of a response word, each by its law. -/
theorem fsrAndResponseFieldPlaces : Obligations.FsrAndResponseFieldPlaces :=
  ⟨fun f => ⟨fsr_pack_getLsbD f 0, fsr_pack_fcode f, fsr_pack_getLsbD f 5⟩,
    fun c k v => ⟨responseWord_value c k v, responseWord_nack c k v, responseWord_bit19 c k v, responseWord_fcode c k v⟩⟩

end Sys2Proof.Machine
end

section
/-! LAWS. One step, by the host's next move and the state of `SEQ` (spec/10_state.md R27, R28; spec/30_encoding.md R78;
spec/70_reset_and_hazards.md R190). -/

namespace Sys2Proof.Machine

section
variable {s : State} {w : CommandWord} {h : List HostMove}

theorem popHost_eq {m : HostMove} (hh : s.host = m :: h) : s.popHost = { s with host := h } := by
  simp [State.popHost, hh]

theorem step_idle_nil (hs : s.seq = .idle) (hh : s.host = []) : step s = .next s := by
  simp [step, State.next, State.stepIdle, hs, hh]

theorem step_idle_issue (hs : s.seq = .idle) (hh : s.host = .issue w :: h) :
    step s = acceptWord w { s with host := h } := by
  simp [step, State.next, State.stepIdle, hs, hh, popHost_eq hh]

theorem step_idle_issueStepped (hs : s.seq = .idle) (hh : s.host = .issueStepped w :: h) :
    step s = .next (beginWord w { s with host := h }) := by
  simp [step, State.next, State.stepIdle, hs, hh, popHost_eq hh]

theorem step_idle_wait (hs : s.seq = .idle) (hh : s.host = .wait :: h) : step s = .next { s with host := h } := by
  simp [step, State.next, State.stepIdle, hs, hh, popHost_eq hh]

/-- Reset is taken in every state (R190). -/
theorem step_reset (hh : s.host = .reset :: h) : step s = .next { s with host := h }.resetBlock := by
  cases hs : s.seq with
  | idle => simp [step, State.next, State.stepIdle, hs, hh, popHost_eq hh]
  | busy p => simp [step, State.next, State.stepInProgress, hs, hh, popHost_eq hh]

/-- The host's moves that are left after a step of a command in progress: a wait is taken, a word is not (R78; log 2). -/
def State.hostInProgress (s : State) : List HostMove := if s.host.head? = some .wait then s.host.tail else s.host

/-- But for a reset, a step of a command in progress is the sequencer's (R27). -/
theorem step_busy {p : Progress} (hs : s.seq = .busy p) (hr : s.NoReset) :
    step s = .next (State.stepBusy { s with host := s.hostInProgress } p) := by
  obtain ⟨c, d, f, q, host, e, n, t, r⟩ := s
  subst hs
  match host with
  | [] => rfl
  | .issue w :: h => rfl
  | .issueStepped w :: h => rfl
  | .wait :: h => rfl
  | .reset :: h => exact absurd rfl (hr h)

end

/-! ### Acceptance -/

section
variable {s : State} {w : CommandWord} {i : Instr}

theorem acceptWord_of_decode (hd : decode w = .ok i) : acceptWord w s = exec i s := by simp [acceptWord, hd]

theorem beginWord_of_decode (hd : decode w = .ok i) : beginWord w s = (commandOf i).accept s := by simp [beginWord, hd]

theorem acceptWord_of_illegal {e : IllegalWord} (hd : decode w = .error e) : acceptWord w s = .next s.rejectWord := by
  simp [acceptWord, hd]

theorem beginWord_of_illegal {e : IllegalWord} (hd : decode w = .error e) : beginWord w s = s.rejectWord := by
  simp [beginWord, hd]

/-- The word of the command a legal word decodes to is that word. -/
theorem commandOf_word_of_decode (hd : decode w = .ok i) : (commandOf i).word = w := by
  rw [commandOf_word, encode_of_decode hd]

/-- A command the faulted state does not perform is answered with the pending code, in both readings (R165). -/
theorem exec_pending (hs : s.seq = .idle) (hf : s.fsr.fault = true) (hi : performedInFault i = false) :
    exec i s = .next s.respondPending := by
  simp [exec_eq_perform, Command.perform, hs, hf, commandOf_inFault, hi]

theorem accept_pending (hf : s.fsr.fault = true) (hi : performedInFault i = false) :
    (commandOf i).accept s = s.respondPending := by
  simp [Command.accept, hf, commandOf_inFault, hi]

/-- A command that is to be performed is performed whole (R28), -/
theorem exec_performed (hs : s.seq = .idle) (hi : s.fsr.fault = false ∨ performedInFault i = true) :
    exec i s = .next ((runUops (commandOf i).uops (s.begin (commandOf i).word)).conclude (commandOf i).answer) := by
  rcases hi with hi | hi <;> simp [exec_eq_perform, Command.perform, hs, commandOf_inFault, hi]

/-- or brought before its first μop that does anything (R27). -/
theorem accept_performed (hi : s.fsr.fault = false ∨ performedInFault i = true) :
    (commandOf i).accept s = settle (commandOf i).answer (commandOf i).uops (s.begin (commandOf i).word) := by
  rcases hi with hi | hi <;> simp [Command.accept, commandOf_inFault, hi]

/-- Whether a command is performed is decided by the fault status alone (R165). -/
theorem performed_or_pending (f : Fsr) (i : Instr) :
    (f.fault = false ∨ performedInFault i = true) ∨ (f.fault = true ∧ performedInFault i = false) := by
  cases f.fault <;> cases performedInFault i <;> simp

end

/-- Settles O34: the step takes the host's move, and the word decodes to the command. -/
theorem stepRunsTheDecodedCommand : Obligations.StepRunsTheDecodedCommand :=
  fun _ _ _ _ hs hh hd => (step_idle_issue hs hh).trans (acceptWord_of_decode hd)

end Sys2Proof.Machine
end

section
/-! LAWS and PROOF. The sequencer's step at a known μop, and the invariant of the state (spec/10_state.md R34, R27). -/

namespace Sys2Proof.Machine

/-! ### The μop at index `upc` -/

section
variable {s t : State} {p : Progress} {i : Instr} {u : Uop} {us : List Uop}

/-- The μop at index `upc` violates its precondition: its fault is raised with its line (R163). -/
theorem stepBusy_violated {c : FaultCode} (hd : decode p.cmd = .ok i)
    (hu : (commandOf i).uops.drop p.upc.toNat = u :: us) (hv : u.violation s = some c) :
    s.stepBusy p = s.raiseFault c u.line := by
  simp [State.stepBusy, hd, hu, performUop_error_iff.2 hv]

/-- The μop at index `upc` is performed: the sequencer goes on to the next that does anything (R27). -/
theorem stepBusy_performed (hd : decode p.cmd = .ok i) (hu : (commandOf i).uops.drop p.upc.toNat = u :: us)
    (ht : s.performUop u = .ok t) : s.stepBusy p = settle (commandOf i).answer us t := by
  simp [State.stepBusy, hd, hu, ht]

/-- An index below the length of the command is the index of a μop. -/
theorem exists_drop_of_upc_lt (h : p.upc.toNat < (commandOf i).uops.length) :
    ∃ u, (commandOf i).uops[p.upc.toNat]? = some u ∧
      (commandOf i).uops.drop p.upc.toNat = u :: (commandOf i).uops.drop (p.upc.toNat + 1) :=
  ⟨_, List.getElem?_eq_getElem h, List.drop_eq_getElem_cons h⟩

/-- The index of a μop is far below the width of `upc` (R26). -/
theorem toNat_ofNat_of_lt_uops {n : Nat} (h : n < (commandOf i).uops.length) : (BitVec.ofNat 8 n).toNat = n := by
  have hl := commandOf_length i
  rw [BitVec.toNat_ofNat, Nat.mod_eq_of_lt (by omega)]

/-- `upc + 1` in the form `settle_spec` speaks of. -/
theorem upc_succ (x : BitVec 8) : x + 1 = BitVec.ofNat 8 (x.toNat + 1) := by simp [BitVec.ofNat_add]

/-- Past a μop of the command `upc` has not wrapped. -/
theorem upc_succ_toNat (hu : (commandOf i).uops.drop p.upc.toNat = u :: us) :
    (p.upc + 1).toNat = p.upc.toNat + 1 := by
  have hl := commandOf_length i
  have hn := congrArg List.length hu
  simp only [List.length_drop, List.length_cons] at hn
  rw [upc_succ, BitVec.toNat_ofNat, Nat.mod_eq_of_lt (by omega)]

end

/-! ### The parts of the invariant -/

/-- The part of the invariant that does not speak of `SEQ`. -/
def State.GoodRecord (s : State) : Prop := s.fsr.Good ∧ ∀ r ∈ s.responses, GoodResponse r

section
variable {s t : State}

theorem State.Inv.goodRecord (h : s.Inv) : s.GoodRecord := ⟨h.1, h.2.2⟩

theorem State.Inv.goodSeq (h : s.Inv) : s.seq.Good s.fsr := h.2.1

theorem inv_of_idle (hs : s.seq = .idle) (h : s.GoodRecord) : s.Inv := ⟨h.1, by simp [hs, Seq.Good], h.2⟩

theorem inv_of_busy {p : Progress} {i : Instr} (hs : s.seq = .busy p) (h : s.GoodRecord) (hd : decode p.cmd = .ok i)
    (hu : p.upc.toNat < (commandOf i).uops.length) (hf : s.fsr.fault = false ∨ performedInFault i = true) : s.Inv :=
  ⟨h.1, by rw [hs]; exact ⟨i, hd, hu, fun ht => hf.resolve_left (by simp [ht])⟩, h.2⟩

/-- μops touch neither `FSR` nor the responses. -/
theorem State.GoodRecord.of_extends (h : s.GoodRecord) (e : Extends s t) : t.GoodRecord := by
  rwa [State.GoodRecord, e.fsr, e.responses]

/-- The fault code of a good `FSR` is 0 to 4 (R25, U21). -/
theorem Fsr.Good.fcode_le {f : Fsr} (h : f.Good) : f.fcode.toNat ≤ 4 := by
  obtain ⟨hno, hyes, -⟩ := h
  cases hf : f.fault with
  | false => simp [(hno hf).1]
  | true => exact (hyes hf).2

theorem goodResponse_responseWord {c : BitVec 4} (hc : c.toNat ≤ 4) (k : BitVec 3) (v : BitVec 16) :
    GoodResponse (responseWord c k v) :=
  ⟨responseWord_bit19 c k v, by rwa [responseWord_fcode]⟩

theorem respond_goodRecord (h : s.GoodRecord) {c : BitVec 4} (hc : c.toNat ≤ 4) (k : BitVec 3) (v : BitVec 16) :
    (s.respond c k v).GoodRecord := by
  refine ⟨h.1, fun r hr => ?_⟩
  rcases List.mem_append.1 hr with hr | hr
  · exact h.2 r hr
  · rw [List.mem_singleton.1 hr]
    exact goodResponse_responseWord hc k v

/-- What a fault writes into `FSR` is good: the codes raised are 1 to 4, and code 4 names line 0 (R163). -/
theorem fsr_good_of_raised {c : FaultCode} (hc : c.number.toNat ≤ 4) (l : Line) :
    Fsr.Good ⟨true, c.number, if c = .illegalCommand then .scl else l⟩ := by
  cases c <;> simp_all [Fsr.Good, FaultCode.number]

theorem number_le_of_violation {c : FaultCode}
    (h : c = .writeOnNonOutput ∨ c = .readOnNonInput ∨ c = .useAfterCleanup) : c.number.toNat ≤ 4 := by
  rcases h with rfl | rfl | rfl <;> decide

/-! ### What ends a command, and what begins one, meets the invariant -/

theorem raiseFault_inv (h : s.GoodRecord) {c : FaultCode} (hc : c.number.toNat ≤ 4) (l : Line) :
    (s.raiseFault c l).Inv := by
  have set : State.GoodRecord
      { s with fsr := ⟨true, c.number, if c = .illegalCommand then .scl else l⟩, seq := .idle } :=
    ⟨fsr_good_of_raised hc l, h.2⟩
  exact inv_of_idle rfl (respond_goodRecord set hc 0 0)

theorem respondPending_inv (hs : s.seq = .idle) (h : s.GoodRecord) : s.respondPending.Inv :=
  inv_of_idle hs (respond_goodRecord h h.1.fcode_le 0 0)

theorem rejectWord_inv (hs : s.seq = .idle) (h : s.GoodRecord) : s.rejectWord.Inv := by
  unfold State.rejectWord
  split
  · exact respondPending_inv hs h
  · exact raiseFault_inv h (by decide) _

theorem finish_inv (h : s.GoodRecord) (a : Progress → Answer) : (s.finish a).Inv := by
  cases hs : s.seq with
  | idle => simpa [State.finish, hs] using inv_of_idle hs h
  | busy p =>
    have good : State.GoodRecord { s with seq := .idle } := h
    simpa [State.finish, hs] using inv_of_idle rfl (respond_goodRecord good (by decide) (a p).nack (a p).value)

theorem resetBlock_inv (h : s.GoodRecord) : s.resetBlock.Inv :=
  inv_of_idle rfl ⟨by simp [Fsr.Good, resetFsr], h.2⟩

/-- A whole command ends in a response or a fault, whatever its μops did. -/
theorem conclude_inv (us : List Uop) (a : Progress → Answer) (h : s.GoodRecord) : ((runUops us s).conclude a).Inv := by
  have after := h.of_extends (runUops_extends us s)
  cases hr : runUops us s with
  | done t => rw [hr] at after; exact finish_inv after a
  | violated c l t => rw [hr] at after; exact raiseFault_inv after (number_le_of_violation (runUops_code hr)) l

/-- Settling stops before a μop of the command, or ends it. -/
theorem settle_inv {p : Progress} {i : Instr} {m : Nat} (hs : s.seq = .busy p) (hu : p.upc = BitVec.ofNat 8 m)
    (hm : m ≤ (commandOf i).uops.length) (hd : decode p.cmd = .ok i) (h : s.GoodRecord)
    (hf : s.fsr.fault = false ∨ performedInFault i = true) :
    (settle (commandOf i).answer ((commandOf i).uops.drop m) s).Inv := by
  rcases settle_spec (commandOf i).answer _ s p m hs hu hm rfl with ⟨n, -, hn, ht, -, -⟩ | ⟨-, ht⟩
  · rw [ht]
    exact inv_of_busy rfl h hd (by rwa [toNat_ofNat_of_lt_uops hn]) hf
  · rw [ht]
    exact finish_inv (h.of_extends (extends_seq s _)) _

theorem accept_inv {w : CommandWord} {i : Instr} (hs : s.seq = .idle) (h : s.GoodRecord) (hd : decode w = .ok i) :
    ((commandOf i).accept s).Inv := by
  rcases performed_or_pending s.fsr i with hi | ⟨hf, hi⟩
  · rw [accept_performed hi, commandOf_word_of_decode hd]
    exact settle_inv (m := 0) rfl rfl (Nat.zero_le _) hd h hi
  · rw [accept_pending hf hi]
    exact respondPending_inv hs h

theorem exec_inv {i : Instr} (hs : s.seq = .idle) (h : s.GoodRecord) (ht : exec i s = .next t) : t.Inv := by
  rcases performed_or_pending s.fsr i with hi | ⟨hf, hi⟩
  · rw [exec_performed hs hi] at ht
    cases ht
    exact conclude_inv _ _ h
  · rw [exec_pending hs hf hi] at ht
    cases ht
    exact respondPending_inv hs h

/-! ### Each kind of step keeps the invariant -/

theorem acceptWord_inv {w : CommandWord} (hs : s.seq = .idle) (h : s.GoodRecord) (ht : acceptWord w s = .next t) :
    t.Inv := by
  cases hd : decode w with
  | error e =>
    rw [acceptWord_of_illegal hd] at ht
    cases ht
    exact rejectWord_inv hs h
  | ok i =>
    rw [acceptWord_of_decode hd] at ht
    exact exec_inv hs h ht

theorem beginWord_inv {w : CommandWord} (hs : s.seq = .idle) (h : s.GoodRecord) : (beginWord w s).Inv := by
  cases hd : decode w with
  | error e => rw [beginWord_of_illegal hd]; exact rejectWord_inv hs h
  | ok i => rw [beginWord_of_decode hd]; exact accept_inv hs h hd

/-- One μop of a command in progress: a fault, or a μop performed and the settling after it. -/
theorem stepBusy_inv {p : Progress} (hs : s.seq = .busy p) (h : s.Inv) : (s.stepBusy p).Inv := by
  obtain ⟨i, hd, hlt, hf⟩ : Seq.Good s.fsr (.busy p) := hs ▸ h.goodSeq
  obtain ⟨u, -, hu⟩ := exists_drop_of_upc_lt hlt
  cases hv : u.violation s with
  | some c =>
    rw [stepBusy_violated hd hu hv]
    exact raiseFault_inv h.goodRecord (number_le_of_violation (violation_code hv)) _
  | none =>
    have ht := performUop_ok_iff.2 ⟨hv, rfl⟩
    have frame := performUop_extends ht
    obtain ⟨q, hq, hcmd, hupc⟩ := performUop_busy hs ht
    rw [stepBusy_performed hd hu ht]
    refine settle_inv hq (hupc.trans (upc_succ _)) hlt (hcmd ▸ hd) (h.goodRecord.of_extends frame) ?_
    rw [frame.fsr]
    exact or_iff_not_imp_left.2 fun hn => hf (by simpa using hn)

/-- A step of an idle block, by the host's next move. -/
theorem step_idle_inv (hs : s.seq = .idle) (h : s.GoodRecord) (ht : step s = .next t) : t.Inv := by
  match hh : s.host with
  | [] => rw [step_idle_nil hs hh] at ht; cases ht; exact inv_of_idle hs h
  | .issue w :: rest => rw [step_idle_issue hs hh] at ht; exact acceptWord_inv (s := { s with host := rest }) hs h ht
  | .issueStepped w :: rest =>
    rw [step_idle_issueStepped hs hh] at ht; cases ht; exact beginWord_inv (s := { s with host := rest }) hs h
  | .wait :: rest => rw [step_idle_wait hs hh] at ht; cases ht; exact inv_of_idle hs h
  | .reset :: rest => rw [step_reset hh] at ht; cases ht; exact resetBlock_inv h

/-- A step of a command in progress: a reset, or the sequencer's. -/
theorem step_busy_inv {p : Progress} (hs : s.seq = .busy p) (h : s.Inv) (ht : step s = .next t) : t.Inv := by
  by_cases hr : s.NoReset
  · rw [step_busy hs hr] at ht
    cases ht
    exact stepBusy_inv (s := { s with host := s.hostInProgress }) hs h
  · obtain ⟨rest, hh⟩ : ∃ rest, s.host = .reset :: rest := by simpa [State.NoReset] using hr
    rw [step_reset hh] at ht
    cases ht
    exact resetBlock_inv h.goodRecord

end

/-- Settles O40: `FSR` is 0, the block is idle, and no response was sent. -/
theorem resetMeetsTheInvariant : Obligations.ResetMeetsTheInvariant :=
  inv_of_idle rfl ⟨by simp [Fsr.Good, State.reset, resetFsr], by simp [State.reset]⟩

/-- Settles O41: a step is an idle block's or a command's in progress, and each keeps the invariant. -/
theorem everyStepKeepsTheInvariant : Obligations.EveryStepKeepsTheInvariant := by
  intro s t h ht
  cases hs : s.seq with
  | idle => exact step_idle_inv hs h.goodRecord ht
  | busy p => exact step_busy_inv hs h ht

end Sys2Proof.Machine
end

section
/-! LAWS and PROOF. The two readings of a command, μop by μop and whole (spec/10_state.md R27, R28). -/

namespace Sys2Proof.Machine

/-! ### Void μops and the commands' answers -/

section
variable {s t : State} {us : List Uop}

/-- Whether a μop is void is a matter of the directions alone (R95). -/
theorem isVoid_congr (h : ∀ l, t.dir l = s.dir l) (u : Uop) : u.isVoid t = u.isVoid s := by
  cases u <;> simp [Uop.isVoid, h]

theorem VoidBetween.congr {a b : Nat} (hv : VoidBetween s us a b) (h : ∀ l, t.dir l = s.dir l) :
    VoidBetween t us a b :=
  fun k u ha hb hu => (isVoid_congr h u).trans (hv k u ha hb hu)

theorem NextUop.congr {n : Nat} (hn : NextUop s us n) (h : ∀ l, t.dir l = s.dir l) : NextUop t us n := by
  obtain ⟨u, hu, hv⟩ := hn
  exact ⟨u, hu, (isVoid_congr h u).trans hv⟩

/-- No command answers with its index. -/
theorem commandOf_answer_upc (i : Instr) (p : Progress) (x : BitVec 8) :
    (commandOf i).answer { p with upc := x } = (commandOf i).answer p := by cases i <;> rfl

/-- What settling changes: `SEQ`, which stands before the next μop that does anything; or, with none left, `SEQ` and the
responses, by the command's one answer (R27; log 5). -/
theorem settle_outcome {p : Progress} {i : Instr} {m : Nat} (hs : s.seq = .busy p) (hu : p.upc = BitVec.ofNat 8 m)
    (hm : m ≤ (commandOf i).uops.length) (ht : settle (commandOf i).answer ((commandOf i).uops.drop m) s = t) :
    t = { s with seq := t.seq, responses := t.responses } ∧
    ((∃ n, m ≤ n ∧ n < 144 ∧ t.seq = .busy { p with upc := BitVec.ofNat 8 n } ∧ t.responses = s.responses ∧
        VoidBetween s (commandOf i).uops m n ∧ NextUop s (commandOf i).uops n) ∨
      (t.seq = .idle ∧ VoidBetween s (commandOf i).uops m (commandOf i).uops.length ∧
        t.responses = s.responses ++ [responseWord 0 ((commandOf i).answer p).nack ((commandOf i).answer p).value])) := by
  subst ht
  rcases settle_spec (commandOf i).answer _ s p m hs hu hm rfl with ⟨n, hmn, hn, h, hvoid, hnext⟩ | ⟨hvoid, h⟩
  · rw [h]
    exact ⟨rfl, .inl ⟨n, hmn, hn.trans_le (commandOf_length i), rfl, rfl, hvoid, hnext⟩⟩
  · rw [h, finish_busy rfl, commandOf_answer_upc]
    exact ⟨rfl, .inr ⟨rfl, hvoid, rfl⟩⟩

/-- The fault a μop raises names the μop's line: it is never `IllegalCommand` (R163). -/
theorem raiseFault_of_violation {u : Uop} {c : FaultCode} (hv : u.violation s = some c) (t : State) :
    t.raiseFault c u.line = { t with
      fsr := ⟨true, c.number, u.line⟩, seq := .idle, responses := t.responses ++ [responseWord c.number 0 0] } := by
  rcases violation_code hv with rfl | rfl | rfl <;> rfl

/-! ### Runs without a host -/

theorem run_idle_nil (hs : s.seq = .idle) (hh : s.host = []) (k : Nat) : Sys2Proof.core.run k s = .next s := by
  induction k with
  | zero => rfl
  | succ k ih => rw [core_run_succ (step_idle_nil hs hh), ih]

theorem step_busy_nil {p : Progress} (hs : s.seq = .busy p) (hh : s.host = []) : step s = .next (s.stepBusy p) := by
  have hr : s.NoReset := fun rest => by simp [hh]
  have same : s.hostInProgress = s.host := by simp [State.hostInProgress, hh]
  rw [step_busy hs hr, same]

/-- A void μop takes no step: settling goes past it as performing it would (log 5). -/
theorem settle_of_isVoid {u : Uop} (a : Progress → Answer) (hv : u.isVoid s = true) (ht : s.performUop u = .ok t) :
    settle a (u :: us) s = settle a us t := by
  obtain rfl : t = s.advance := by simpa [performUop_of_isVoid hv] using ht.symm
  rw [settle, if_pos hv]

theorem settle_of_not_isVoid {u : Uop} (a : Progress → Answer) (hv : ¬ u.isVoid s = true) : settle a (u :: us) s = s := by
  rw [settle, if_neg hv]

/-- From the settled sequencer the rest of a command, one μop a step, ends where the run of its μops ends. -/
theorem run_settle {i : Instr} : ∀ (us : List Uop) (s : State) (p : Progress) (k : Nat), s.seq = .busy p →
    decode p.cmd = .ok i → (commandOf i).uops.drop p.upc.toNat = us → us.length ≤ k → s.host = [] →
    Sys2Proof.core.run k (settle (commandOf i).answer us s) = .next ((runUops us s).conclude (commandOf i).answer) := by
  intro us
  induction us with
  | nil =>
    intro s p k hs _ _ _ hh
    have ended := finish_busy hs (commandOf i).answer
    exact run_idle_nil (by rw [settle, ended]) (by rw [settle, ended]; exact hh) k
  | cons u us ih =>
    intro s p k hs hd hu hk hh
    obtain ⟨k, rfl⟩ : ∃ j, k = j + 1 := Nat.exists_eq_add_one.2 (Nat.lt_of_lt_of_le (Nat.succ_pos _) hk)
    have hk' : us.length ≤ k := Nat.le_of_succ_le_succ hk
    cases hp : s.performUop u with
    | error c =>
      have live : ¬ u.isVoid s = true := fun hv => by simp [performUop_of_isVoid hv] at hp
      rw [settle_of_not_isVoid _ live, core_run_succ (step_busy_nil hs hh),
        stepBusy_violated hd hu (performUop_error_iff.1 hp), runUops, hp]
      exact run_idle_nil (s := s.raiseFault c u.line) rfl hh k
    | ok t =>
      obtain ⟨q, hq, hcmd, hupc⟩ := performUop_busy hs hp
      have hu' : (commandOf i).uops.drop q.upc.toNat = us := by
        rw [hupc, upc_succ_toNat hu, ← List.tail_drop, hu, List.tail_cons]
      have hh' : t.host = [] := (performUop_extends hp).host.trans hh
      have rest := fun j hj => ih t q j hq (hcmd ▸ hd) hu' hj hh'
      rw [runUops, hp]
      by_cases hv : u.isVoid s = true
      · rw [settle_of_isVoid _ hv hp]
        exact rest (k + 1) (Nat.le_succ_of_le hk')
      · rw [settle_of_not_isVoid _ hv, core_run_succ (step_busy_nil hs hh), stepBusy_performed hd hu hp]
        exact rest k hk'

/-- An illegal word leaves the block idle and takes nothing of the host's script (R76, R165). -/
theorem rejectWord_seq (hs : s.seq = .idle) : s.rejectWord.seq = .idle := by
  unfold State.rejectWord
  split
  · exact hs
  · rfl

theorem rejectWord_host : s.rejectWord.host = s.host := by
  unfold State.rejectWord
  split <;> rfl

/-- A word begun and then left to the sequencer ends as the word accepted whole (R28): both readings decide in the same way
whether it is performed, and if it is, the steps that follow are the run of its at most 144 μops. -/
theorem run_beginWord (w : CommandWord) (hs : s.seq = .idle) (hh : s.host = []) {k : Nat} (hk : 144 ≤ k) :
    Sys2Proof.core.run k (beginWord w s) = acceptWord w s := by
  cases hd : decode w with
  | error e =>
    rw [acceptWord_of_illegal hd, beginWord_of_illegal hd]
    exact run_idle_nil (rejectWord_seq hs) (rejectWord_host.trans hh) k
  | ok i =>
    rw [acceptWord_of_decode hd, beginWord_of_decode hd]
    rcases performed_or_pending s.fsr i with hi | ⟨hf, hi⟩
    · rw [exec_performed hs hi, accept_performed hi, commandOf_word_of_decode hd]
      exact run_settle _ _ _ k rfl hd rfl ((commandOf_length i).trans hk) hh
    · rw [exec_pending hs hf hi, accept_pending hf hi]
      exact run_idle_nil (s := s.respondPending) hs hh k

end

/-- Settles O39: the first step takes the word, the others perform it as the one step does. -/
theorem steppedCommandEqualsWholeCommand : Obligations.SteppedCommandEqualsWholeCommand := by
  intro s w k hs hk
  rw [step_idle_issue (s := { s with host := [.issue w] }) hs rfl,
    core_run_succ (step_idle_issueStepped (s := { s with host := [.issueStepped w] }) hs rfl)]
  exact run_beginWord (s := { s with host := [] }) w hs rfl hk

/-- Settles O50: acceptance is settling from the first μop, or what the whole-command reading answers. -/
theorem acceptanceStopsBeforeTheFirstUop : Obligations.AcceptanceStopsBeforeTheFirstUop := by
  intro s w h hs hh
  rw [step_idle_issueStepped hs hh]
  refine ⟨fun i hd hi => ⟨_, rfl, ?_⟩, fun hnot => ?_⟩
  · obtain ⟨t, ht⟩ : ∃ t, beginWord w { s with host := h } = t := ⟨_, rfl⟩
    have settled : settle (commandOf i).answer ((commandOf i).uops.drop 0) (State.begin { s with host := h } w) = t := by
      rw [← ht, beginWord_of_decode hd, accept_performed (s := { s with host := h }) hi, commandOf_word_of_decode hd,
        List.drop_zero]
    obtain ⟨frame, outcome⟩ := settle_outcome rfl rfl (Nat.zero_le _) settled
    rw [ht]
    refine ⟨frame, outcome.imp ?_ ?_⟩
    · rintro ⟨n, -, hn, hseq, hresp, hvoid, hnext⟩
      exact ⟨n, hn, hseq, hresp, hvoid, hnext⟩
    · rintro ⟨hseq, hvoid, hresp⟩
      exact ⟨hseq, hvoid, _, hresp⟩
  · rw [step_idle_issue (s := { s with host := .issue w :: h }) hs rfl]
    cases hd : decode w with
    | error e => rw [acceptWord_of_illegal hd, beginWord_of_illegal hd]
    | ok i =>
      obtain ⟨hf, hi⟩ := hnot i hd
      rw [acceptWord_of_decode hd, beginWord_of_decode hd, accept_pending (s := { s with host := h }) hf hi]
      exact (exec_pending (s := { s with host := h }) hs hf hi).symm

/-- Settles O51: the μop at index `upc` raises its fault, or is performed and the sequencer settles. -/
theorem oneStepIsOneMicroOperation : Obligations.OneStepIsOneMicroOperation := by
  intro s p hinv hr hs
  obtain ⟨i, hd, hlt, -⟩ : Seq.Good s.fsr (.busy p) := hs ▸ hinv.goodSeq
  obtain ⟨u, hu, hdrop⟩ := exists_drop_of_upc_lt hlt
  rw [step_busy hs hr]
  cases hv : u.violation s with
  | some c =>
    rw [stepBusy_violated (s := { s with host := s.hostInProgress }) hd hdrop hv, raiseFault_of_violation hv]
    refine ⟨i, u, _, hd, hu, rfl, rfl, fun k hk => ?_, fun hn => nomatch hv.symm.trans hn⟩
    obtain rfl : c = k := Option.some.inj (hv.symm.trans hk)
    rfl
  | none =>
    obtain ⟨v, t, henv, hp, hseq, htrace, hcell, hfsr, hhost, hanswers, hreads, hresp⟩ :=
      performUop_spec (s := { s with host := s.hostInProgress }) hs hv
    obtain ⟨t', ht'⟩ : ∃ t', settle (commandOf i).answer ((commandOf i).uops.drop (p.upc.toNat + 1)) t = t' := ⟨_, rfl⟩
    obtain ⟨frame, outcome⟩ := settle_outcome hseq (upc_succ _) hlt ht'
    have cells : ∀ l, t'.cell l = t.cell l := fun l => by rw [frame]; cases l <;> rfl
    have dirs : ∀ l, t'.dir l = t.dir l := fun l => congrArg LineCell.dir (cells l)
    rw [stepBusy_performed hd hdrop hp, ht']
    refine ⟨i, u, t', hd, hu, rfl, (congrArg State.host frame).trans hhost, fun _ hk => (nomatch hv.symm.trans hk),
      fun _ => ⟨v, henv, (congrArg State.trace frame).trans htrace, fun l => (cells l).trans (hcell l),
        (congrArg State.fsr frame).trans hfsr, (congrArg State.env frame).trans hanswers,
        (congrArg State.reads frame).trans hreads, outcome.imp ?_ ?_⟩⟩
    · rintro ⟨n, hmn, hn, hseq', hresp', hvoid, hnext⟩
      exact ⟨n, hmn, hn, hseq', hresp'.trans hresp, hvoid.congr dirs, hnext.congr dirs⟩
    · rintro ⟨hseq', hvoid, hresp'⟩
      refine ⟨hseq', hvoid.congr dirs, ?_⟩
      rw [hresp', hresp, commandOf_answer_upc]

end Sys2Proof.Machine
end

section
/-! LAWS and PROOF. A command's first μop, by whether it violates its precondition (spec/10_state.md R27, R28;
spec/60_exceptions.md R163, R164); the statements of the family 20_memory. -/

namespace Sys2Proof.Machine

section
variable {s : State} {i : Instr} {u : Uop}

/-- A precondition is a matter of the directions alone, so accepting a word does not change it (R90). -/
theorem violation_begin (u : Uop) (s : State) (w : CommandWord) : u.violation (s.begin w) = u.violation s := by
  cases u <;> rfl

/-- `RD(L)` is performed on an input alone (R94). -/
theorem rd_violation_of_inp {l : Line} (k : Sink) (hd : s.dir l = .inp) : (Uop.rd l k).violation s = none := by
  simp [Uop.violation, hd]

theorem rd_violation_of_out {l : Line} (k : Sink) (hd : s.dir l = .out) :
    (Uop.rd l k).violation s = some .readOnNonInput := by
  simp [Uop.violation, hd]

/-- On a released line every μop but a release uses a pin that was given back (R164). -/
theorem violation_of_released {u : Uop} (hu : ∀ l, u ≠ .rel l) (hd : s.dir u.line = .released) :
    u.violation s = some .useAfterCleanup := by
  cases u with
  | rel l => exact absurd rfl (hu l)
  | out l | inp l | wr l _ | rd l _ => simp [Uop.violation, show s.dir l = .released from hd]

/-- A command whose first μop violates its precondition leaves an idle block as the fault does, nothing emitted (R163). -/
theorem exec_of_violation {us : List Uop} {c : FaultCode} (h : s.Ready) (hu : (commandOf i).uops = u :: us)
    (hv : u.violation s = some c) : exec i s = .next (s.faulted c.number u.line) := by
  have idle : s.seq = .idle := h.1
  have stops : (s.begin (commandOf i).word).performUop u = .error c :=
    performUop_error_iff.2 ((violation_begin u s _).trans hv)
  rw [exec_eq_perform, perform_ready h, hu, runUops, stops, Run.conclude, raiseFault_of_violation hv, State.faulted, idle]
  rfl

/-- A command of one μop whose precondition holds is that μop and the response (R27). -/
theorem exec_of_single_uop (h : s.Ready) (hu : (commandOf i).uops = [u]) (hv : u.violation s = none) :
    exec i s = .next ((u.effect (s.begin (commandOf i).word)).advance.finish (commandOf i).answer) := by
  have goes := performUop_ok_iff.2 ⟨(violation_begin u s (commandOf i).word).trans hv, rfl⟩
  rw [exec_eq_perform, perform_ready h, hu, runUops, goes]
  rfl

/-- The environment's list decides the answer as long as it has one (R55; log 3). -/
theorem answer_of_env_cons {a : Level} {rest : List Level} (h : s.env = a :: rest) : s.answer = a := by
  simp [State.answer, h]

/-- `RD(L)` of a command in progress: the answer is taken between the two sleeps, and no line cell changes (R94). -/
theorem effect_rd {p : Progress} (hs : s.seq = .busy p) (l : Line) (k : Sink) :
    (Uop.rd l k).effect s = { s with
      seq := .busy (k.collect (s.emit .sleep).answer p), env := s.env.tail, reads := s.reads + 1,
      trace := s.trace ++ [.sleep, .rd l (s.emit .sleep).answer, .sleep] } := by
  simp [Uop.effect, State.delayed, State.readPin, State.mapProgress, State.takeAnswer, State.emit, hs]

/-- LNRD of an input (R94, R99): one sleep, the read, one sleep, and the level read as the answer. -/
theorem exec_lnrd_of_inp {l : Line} (h : s.Ready) (hd : s.dir l = .inp) :
    exec (.lnrd l) s = .next { s with
      env := s.env.tail, reads := s.reads + 1, trace := s.trace ++ [.sleep, .rd l (s.emit .sleep).answer, .sleep],
      responses := s.responses ++ [responseWord 0 0 (levelBits 16 (s.emit .sleep).answer)] } := by
  have idle : s.seq = .idle := h.1
  rw [exec_of_single_uop h rfl (rd_violation_of_inp .ret hd), effect_rd rfl, advance_busy rfl, finish_busy rfl, idle]
  rfl

end

/-- Settles O15: on an input the one μop is performed; on an output or a released line it violates its precondition. -/
theorem lnrdReadsAnInput : Obligations.LnrdReadsAnInput := by
  intro l s ready
  have first : (commandOf (.lnrd l)).uops = [.rd l .ret] := rfl
  refine ⟨fun inp => ⟨(s.emit .sleep).answer, fun _ _ env => answer_of_env_cons env, exec_lnrd_of_inp ready inp⟩,
    fun out => ?_, fun released => ?_⟩
  · exact exec_of_violation ready first (rd_violation_of_out .ret out)
  · exact exec_of_violation ready first (violation_of_released (by simp) released)

/-- Settles O35: the step of an idle block by the host's next move, none or a wait. -/
theorem idleBlockDoesNothingByItself : Obligations.IdleBlockDoesNothingByItself :=
  fun _ idle => ⟨step_idle_nil idle, fun _ => step_idle_wait idle⟩

end Sys2Proof.Machine
end

section
/-! LAWS and PROOF. Commands and words: rows, masks, reserved bits, round trips (spec/30_encoding.md R71 to R73, R76, R77,
R81), and the address bytes (R74). -/

namespace Sys2Proof

/-! ### The word of a command -/

/-- The word of a well-formed command matches its row (R73), whatever the command. -/
theorem encode_matches_row {i : Instr} (h : i.wellFormed = true) : encode i &&& i.row.mask = i.row.pattern := by
  cases i with
  | lnout line => exact Laws.RowMask.lnout line h
  | lnin line => exact Laws.RowMask.lnin line h
  | lnwr line level => exact Laws.RowMask.lnwr line level h
  | lnrd line => exact Laws.RowMask.lnrd line h
  | lnrel line => exact Laws.RowMask.lnrel line h
  | start => exact Laws.RowMask.start h
  | stop => exact Laws.RowMask.stop h
  | wbit bit => exact Laws.RowMask.wbit bit h
  | rbit => exact Laws.RowMask.rbit h
  | sack => exact Laws.RowMask.sack h
  | cack => exact Laws.RowMask.cack h
  | sendb byte => exact Laws.RowMask.sendb byte h
  | recvb => exact Laws.RowMask.recvb h
  | rdreg dev reg => exact Laws.RowMask.rdreg dev reg h
  | dec16 low high => exact Laws.RowMask.dec16 low high h
  | cleanup => exact Laws.RowMask.cleanup h

section
variable (low high : Byte)

/-- Format W carries its low byte in bits 7:0 and its high byte in bits 15:8 (R71). -/
theorem operandField_dec16_low : (Instr.dec16 low high).operandField.extractLsb' 0 8 = low := by
  ext j hj
  have h16 : j < 16 := by omega
  simp [Instr.operandField, hj, h16]

theorem operandField_dec16_high : (Instr.dec16 low high).operandField.extractLsb' 8 8 = high := by
  ext j hj
  have h16 : 8 + j < 16 := by omega
  simp [Instr.operandField, h16, BitVec.getLsbD_eq_getElem hj]

/-- Format B8 carries its byte in bits 7:0 (R71). -/
theorem operandField_sendb_byte (byte : Byte) : (Instr.sendb byte).operandField.extractLsb' 0 8 = byte := by
  ext j hj
  have h16 : j < 16 := by omega
  simp [Instr.operandField, h16, BitVec.getLsbD_eq_getElem hj]

end

section
variable (dev reg : Byte)

/-- Format A carries the register byte where format W carries its low byte (R71). -/
theorem operandField_rdreg_reg : (Instr.rdreg dev reg).operandField.extractLsb' 0 8 = reg :=
  operandField_dec16_low reg dev

/-- The seven bits of the device field give back a device address that fits them (R72). -/
theorem operandField_rdreg_dev (fits : dev.msb = false) :
    ((Instr.rdreg dev reg).operandField.extractLsb' 8 7).setWidth 8 = dev := by
  have top : dev[7] = false := by simpa [BitVec.msb_eq_getLsbD_last] using fits
  ext j hj
  rcases Nat.lt_succ_iff_lt_or_eq.1 hj with lt | rfl
  · have h16 : 8 + j < 16 := by omega
    simp [Instr.operandField, lt, h16, BitVec.getLsbD_eq_getElem hj]
  · simp [top]

end

/-- The operands of a well-formed command are read back from its operand field (R71, R72). -/
theorem commandOfFields_operandField {i : Instr} (h : i.wellFormed = true) :
    commandOfFields i.opcode i.operandField = some i := by
  cases i with
  | lnout line | lnin line | lnrd line | lnrel line => cases line <;> rfl
  | lnwr line level => cases line <;> cases level <;> rfl
  | wbit bit => cases bit <;> rfl
  | start | stop | rbit | sack | cack | recvb | cleanup => rfl
  | sendb byte => exact congrArg (some ∘ Instr.sendb) (operandField_sendb_byte byte)
  | rdreg dev reg =>
    have fits : dev.msb = false := by simpa [Instr.wellFormed] using h
    exact congrArg₂ (fun d r => some (Instr.rdreg d r)) (operandField_rdreg_dev dev reg fits)
      (operandField_rdreg_reg dev reg)
  | dec16 low high =>
    exact congrArg₂ (fun l h => some (Instr.dec16 l h)) (operandField_dec16_low low high)
      (operandField_dec16_high low high)

/-- A word carries its command: opcode and operands are read back from their fields, and the word matches its row (R81). -/
theorem decode_encode {i : Instr} (h : i.wellFormed = true) : decode (encode i) = .ok i := by
  rw [decode_ok_iff, opField_encode, argField_encode]
  exact ⟨commandOfFields_operandField h, encode_matches_row h⟩

/-! ### The command of a word -/

section
variable {w : CommandWord} {i : Instr}

/-- A device address decoded from a word has seven bits (R72). -/
theorem wellFormed_of_decode (h : decode w = .ok i) : i.wellFormed = true := by
  obtain ⟨fields, -⟩ := decode_ok_iff.1 h
  unfold commandOfFields at fields
  split at fields <;> cases fields
  case h_14 => simp [Instr.wellFormed, BitVec.msb_setWidth]
  all_goals rfl

/-! ### The rows of the opcode map -/

/-- The rows of the map are the rows of the commands. -/
theorem mem_opcodeMap_iff {r : OpcodeRow} : r ∈ opcodeMap ↔ ∃ i : Instr, i.row = r := by
  constructor
  · revert r
    simp [opcodeMap]
  · rintro ⟨i, rfl⟩
    cases i <;> simp [opcodeMap, Instr.row]

/-- A row's mask covers the whole opcode and the reserved operand bits of that opcode (R71, R73). -/
theorem opcodeMap_masks : ∀ r ∈ opcodeMap, opField r.mask = BitVec.allOnes 8 ∧
    argField r.mask = Machine.reservedArgBits r.op.toNat ∧ opField r.pattern = r.op := by decide

/-- A word matches a row exactly when it has the row's opcode and no 1 in a reserved operand bit (R73, R76). -/
theorem matches_row_iff {r : OpcodeRow} (hr : r ∈ opcodeMap) (w : CommandWord) : w &&& r.mask = r.pattern ↔
    opField w = r.op ∧ argField w &&& Machine.reservedArgBits r.op.toNat = 0 := by
  obtain ⟨maskOp, maskArg, patternOp⟩ := opcodeMap_masks r hr
  have patternArg : argField r.pattern = 0 := by
    obtain ⟨i, rfl⟩ := mem_opcodeMap_iff.1 hr
    exact argField_pattern i
  have op : opField (w &&& r.mask) = opField w := by
    rw [← BitVec.and_allOnes (x := opField w), ← maskOp]
    exact BitVec.extractLsb'_and
  have arg : argField (w &&& r.mask) = argField w &&& Machine.reservedArgBits r.op.toNat := by
    rw [← maskArg]
    exact BitVec.extractLsb'_and
  constructor
  · intro h
    rw [← op, ← arg, h]
    exact ⟨patternOp, patternArg⟩
  · rintro ⟨ho, ha⟩
    exact word_ext_fields (by rw [op, ho, patternOp]) (by rw [arg, ha, patternArg])

/-- Under an opcode of the map every operand field, reserved bits aside, holds the operands of a command (R71). -/
theorem exists_commandOfFields {r : OpcodeRow} (hr : r ∈ opcodeMap) (arg : BitVec 16) :
    ∃ i, commandOfFields r.op arg = some i ∧ i.row = r := by
  obtain ⟨i, rfl⟩ := mem_opcodeMap_iff.1 hr
  cases i <;> exact ⟨_, rfl, rfl⟩

/-- A word is the command of a row exactly when it matches the row (R73). -/
theorem decodes_to_row_iff {r : OpcodeRow} (hr : r ∈ opcodeMap) (w : CommandWord) :
    (∃ i, decode w = .ok i ∧ i.row = r) ↔ w &&& r.mask = r.pattern := by
  constructor
  · rintro ⟨i, hd, rfl⟩
    exact (decode_ok_iff.1 hd).2
  · intro hm
    obtain ⟨i, fields, rfl⟩ := exists_commandOfFields hr (argField w)
    rw [← ((matches_row_iff hr w).1 hm).1] at fields
    exact ⟨i, decode_ok_iff.2 ⟨fields, hm⟩, rfl⟩

/-- No two rows share a word: decoding gives the one command whose row it is (R77). -/
theorem row_eq_of_matches {r q : OpcodeRow} (hr : r ∈ opcodeMap) (hq : q ∈ opcodeMap) (w : CommandWord)
    (hwr : w &&& r.mask = r.pattern) (hwq : w &&& q.mask = q.pattern) : r = q := by
  obtain ⟨i, hi, rfl⟩ := (decodes_to_row_iff hr w).2 hwr
  obtain ⟨j, hj, rfl⟩ := (decodes_to_row_iff hq w).2 hwq
  rw [Except.ok.inj (hi.symm.trans hj)]

/-! ### Illegal words -/

/-- The opcodes that are not reserved are the ones of the map (R73, R76). -/
theorem exists_row_of_opcode : ∀ op : BitVec 8, ¬ (op = 0 ∨ 0x10 < op.toNat) ↔ ∃ r ∈ opcodeMap, r.op = op := by decide

/-- A word is legal exactly when it matches a row of the map (R76). -/
theorem not_illegal_iff_matches_row (w : CommandWord) :
    ¬ Machine.IllegalCommandWord w ↔ ∃ r ∈ opcodeMap, w &&& r.mask = r.pattern := by
  rw [Machine.IllegalCommandWord, not_or, not_not, exists_row_of_opcode]
  constructor
  · rintro ⟨⟨r, hr, op⟩, arg⟩
    exact ⟨r, hr, (matches_row_iff hr w).2 ⟨op.symm, op ▸ arg⟩⟩
  · rintro ⟨r, hr, hm⟩
    obtain ⟨op, arg⟩ := (matches_row_iff hr w).1 hm
    exact ⟨⟨r, hr, op.symm⟩, op ▸ arg⟩

/-- A word decodes exactly when it is legal (R76, R77). -/
theorem decodes_iff_not_illegal (w : CommandWord) : (∃ i, decode w = .ok i) ↔ ¬ Machine.IllegalCommandWord w := by
  rw [not_illegal_iff_matches_row]
  constructor
  · rintro ⟨i, hd⟩
    exact ⟨i.row, mem_opcodeMap_iff.2 ⟨i, rfl⟩, (decode_ok_iff.1 hd).2⟩
  · rintro ⟨r, hr, hm⟩
    obtain ⟨i, hd, -⟩ := (decodes_to_row_iff hr w).2 hm
    exact ⟨i, hd⟩

theorem exists_decode_error_of_illegal (h : Machine.IllegalCommandWord w) : ∃ e, decode w = .error e := by
  cases hd : decode w with
  | error e => exact ⟨e, rfl⟩
  | ok i => exact absurd h ((decodes_iff_not_illegal w).1 ⟨i, hd⟩)

end

end Sys2Proof

namespace Sys2Proof.Machine

/-! ### The address bytes -/

/-- The address byte is the device address shifted left, its top bit dropped (R74). -/
theorem writeAddress_eq_shiftLeft (dev : Byte) : writeAddress dev = dev <<< 1 := by
  apply BitVec.eq_of_getLsbD_eq
  intro j hj
  rw [writeAddress]
  change BitVec.getLsbD (w := 7 + 1) _ j = _
  rw [BitVec.getLsbD_append]
  rcases j with _ | j
  · simp
  · have h7 : j < 7 := by omega
    simpa [h7] using fun _ => hj

theorem writeAddress_toNat {dev : Byte} (h : dev.toNat < 128) : (writeAddress dev).toNat = 2 * dev.toNat := by
  rw [writeAddress_eq_shiftLeft, BitVec.toNat_shiftLeft, Nat.shiftLeft_eq, Nat.mod_eq_of_lt (by omega)]
  omega

/-- Bit 0 of the write address is 0, so setting it adds one (R74). -/
theorem readAddress_toNat {dev : Byte} (h : dev.toNat < 128) : (readAddress dev).toNat = 2 * dev.toNat + 1 := by
  rw [readAddress, BitVec.toNat_or, writeAddress_toNat h]
  exact (Nat.two_pow_add_eq_or_of_lt (i := 1) (b := 1) (by decide) dev.toNat).symm

/-- Settles O6: opcode and operands are read back from the word, and the word matches its row. -/
theorem decodeOfEncode : Obligations.DecodeOfEncode := fun _ => decode_encode

/-- Settles O7: the fields of a legal word are those of its command. -/
theorem encodeOfDecode : Obligations.EncodeOfDecode := fun _ _ hd => ⟨encode_of_decode hd, wellFormed_of_decode hd⟩

/-- Settles O8: the table is the model's map, and the mask test fixes the opcode. -/
theorem wordIsARowsCommandByItsMask : Obligations.WordIsARowsCommandByItsMask :=
  ⟨rfl, fun w _ hr => decodes_to_row_iff hr w⟩

/-- Settles O9: the legal words are those that match a row, and they match one only. -/
theorem everyWordIsOneCommandOrIllegal : Obligations.EveryWordIsOneCommandOrIllegal :=
  ⟨decodes_iff_not_illegal, fun w _ _ hr hq => row_eq_of_matches hr hq w⟩

/-- Settles O10: the decoder evaluated on the eleven fixed words. -/
theorem sampleWordsDecode : Obligations.SampleWordsDecode := by
  unfold Obligations.SampleWordsDecode
  decide

/-- Settles O11: the shift, its value, and the two bytes of the source's device. -/
theorem addressBytes : Obligations.AddressBytes := by
  refine ⟨fun dev h => ?_, by decide, by decide⟩
  have write := writeAddress_toNat h
  exact ⟨writeAddress_eq_shiftLeft dev, write, by omega, rfl, readAddress_toNat h⟩

end Sys2Proof.Machine
end

section
/-! LAWS and PROOF. What one word of the host does to an idle block and to a busy one (spec/30_encoding.md R70, R76, R78). -/

namespace Sys2Proof.Machine

/-! ### Illegal words -/

section
variable {s : State}

/-- An illegal word out of the faulted state sets `FSR` to code 4, line 0, and is answered with the code (R76, R163). -/
theorem rejectWord_of_no_fault (hf : s.fsr.fault = false) : s.rejectWord = { s with
    fsr := ⟨true, 4, .scl⟩, seq := .idle, responses := s.responses ++ [0x400000] } := by
  rw [State.rejectWord, hf]
  rfl

/-- In the faulted state it is answered with the pending code and changes nothing else (R76, R165). -/
theorem rejectWord_of_fault (hf : s.fsr.fault = true) : s.rejectWord = { s with
    responses := s.responses ++ [responseWord s.fsr.fcode 0 0] } := by
  rw [State.rejectWord, hf]
  rfl

end

/-- Settles O31: the word decodes to no command, so the step rejects it. -/
theorem illegalWordRaisesTheFault : Obligations.IllegalWordRaisesTheFault := by
  refine ⟨fun s w h idle offered illegal => ?_, .inl (.inl (by decide))⟩
  obtain ⟨e, hd⟩ := exists_decode_error_of_illegal illegal
  rw [step_idle_issue idle offered, acceptWord_of_illegal hd]
  refine ⟨fun hf => ?_, fun hf => ?_⟩
  · rw [rejectWord_of_no_fault (s := { s with host := h }) hf, idle]
  · rw [rejectWord_of_fault (s := { s with host := h }) hf]

/-! ### One response to a word -/

/-- A word was taken in `s` and answered in `t`: one response more, the block idle, the host's further moves untouched (R70). -/
structure AnsweredOnce (s t : State) : Prop where
  idle : t.seq = .idle
  host : t.host = s.host
  response : ∃ r, t.responses = s.responses ++ [r]

section
variable {s t u : State}

/-- μops send no response of their own. -/
theorem AnsweredOnce.of_extends (e : Extends s t) (h : AnsweredOnce t u) : AnsweredOnce s u :=
  ⟨h.idle, h.host.trans e.host, e.responses ▸ h.response⟩

theorem raiseFault_answeredOnce (c : FaultCode) (l : Line) : AnsweredOnce s (s.raiseFault c l) := ⟨rfl, rfl, _, rfl⟩

theorem respondPending_answeredOnce (idle : s.seq = .idle) : AnsweredOnce s s.respondPending := ⟨idle, rfl, _, rfl⟩

theorem rejectWord_answeredOnce (idle : s.seq = .idle) : AnsweredOnce s s.rejectWord := by
  unfold State.rejectWord
  split
  · exact respondPending_answeredOnce idle
  · exact raiseFault_answeredOnce _ _

theorem finish_answeredOnce {p : Progress} (busy : s.seq = .busy p) (a : Progress → Answer) :
    AnsweredOnce s (s.finish a) := by
  rw [finish_busy busy]
  exact ⟨rfl, rfl, _, rfl⟩

/-- A run of μops leaves the command in progress. -/
theorem runUops_busy (us : List Uop) {s : State} {p : Progress} (busy : s.seq = .busy p) :
    ∃ q, (runUops us s).state.seq = .busy q := by
  induction us generalizing s p with
  | nil => exact ⟨p, busy⟩
  | cons u us ih =>
    cases hu : s.performUop u with
    | error c => exact ⟨p, by simpa [runUops, hu, Run.state] using busy⟩
    | ok t =>
      obtain ⟨q, hq, -⟩ := performUop_busy busy hu
      simpa [runUops, hu] using ih hq

/-- A run is answered at its end or at its first violation, and only there (R27, R163). -/
theorem conclude_answeredOnce {p : Progress} (busy : s.seq = .busy p) (us : List Uop) (a : Progress → Answer) :
    AnsweredOnce s ((runUops us s).conclude a) := by
  refine AnsweredOnce.of_extends (runUops_extends us s) ?_
  obtain ⟨q, hq⟩ := runUops_busy us busy
  cases hr : runUops us s with
  | done t => rw [hr] at hq; exact finish_answeredOnce hq a
  | violated c l t => exact raiseFault_answeredOnce c l

theorem exec_answeredOnce (idle : s.seq = .idle) (i : Instr) : ∃ t, exec i s = .next t ∧ AnsweredOnce s t := by
  rcases performed_or_pending s.fsr i with hi | ⟨hf, hi⟩
  · have begun : Extends s (s.begin (commandOf i).word) := extends_seq s _
    exact ⟨_, exec_performed idle hi, .of_extends begun (conclude_answeredOnce rfl _ _)⟩
  · exact ⟨_, exec_pending idle hf hi, respondPending_answeredOnce idle⟩

theorem acceptWord_answeredOnce (idle : s.seq = .idle) (w : CommandWord) :
    ∃ t, acceptWord w s = .next t ∧ AnsweredOnce s t := by
  cases hd : decode w with
  | error e => exact ⟨_, acceptWord_of_illegal hd, rejectWord_answeredOnce idle⟩
  | ok i =>
    rw [acceptWord_of_decode hd]
    exact exec_answeredOnce idle i

end

/-- Settles O36: the step accepts the word, and accepting answers it once. -/
theorem oneResponsePerWord : Obligations.OneResponsePerWord := by
  intro s w h idle offered
  obtain ⟨t, ht, hidle, hhost, r, hr⟩ := acceptWord_answeredOnce (s := { s with host := h }) idle w
  exact ⟨t, r, (step_idle_issue idle offered).trans ht, hidle, hhost, hr⟩

/-! ### The host's moves and the sequencer -/

section
variable {s : State} {p : Progress}

/-- A busy state no run reaches: the word in progress is no command (log 14). -/
theorem stepBusy_of_illegal {e : IllegalWord} (hd : decode p.cmd = .error e) :
    s.stepBusy p = s.raiseFault .illegalCommand .scl := by simp [State.stepBusy, hd]

/-- The other busy state no run reaches: the index is past the command's last μop (log 14). -/
theorem stepBusy_at_end {i : Instr} (hd : decode p.cmd = .ok i) (hu : (commandOf i).uops.drop p.upc.toNat = []) :
    s.stepBusy p = s.finish (commandOf i).answer := by simp [State.stepBusy, hd, hu]

end

/-- The state with the host's moves `h` still to come. -/
def State.withHost (s : State) (h : List HostMove) : State := { s with host := h }

section
variable (s : State) (h : List HostMove)

theorem mapProgress_withHost (f : Progress → Progress) : (s.withHost h).mapProgress f = (s.mapProgress f).withHost h := by
  obtain ⟨_, _, _, seq, _, _, _, _, _⟩ := s
  cases seq <;> rfl

theorem finish_withHost (a : Progress → Answer) : (s.withHost h).finish a = (s.finish a).withHost h := by
  obtain ⟨_, _, _, seq, _, _, _, _, _⟩ := s
  cases seq <;> rfl

theorem violation_withHost (u : Uop) : u.violation (s.withHost h) = u.violation s := by cases u <;> rfl

theorem isVoid_withHost (u : Uop) : u.isVoid (s.withHost h) = u.isVoid s := by cases u <;> rfl

/-- A μop reads none of the host's moves and takes none (R91 to R95). -/
theorem effect_withHost (u : Uop) : u.effect (s.withHost h) = (u.effect s).withHost h := by
  cases u with
  | out l | inp l | wr l _ => cases l <;> rfl
  | rd l k =>
    obtain ⟨_, _, _, seq, _, _, _, _, _⟩ := s
    cases seq <;> rfl
  | rel l =>
    change (if s.dir l = .released then s.withHost h else _) = _
    rw [Uop.effect, apply_ite (State.withHost · h)]
    cases l <;> rfl

theorem performUop_withHost {u : Uop} {t : State} (ht : s.performUop u = .ok t) :
    (s.withHost h).performUop u = .ok (t.withHost h) := by
  obtain ⟨hv, rfl⟩ := performUop_ok_iff.1 ht
  refine performUop_ok_iff.2 ⟨(violation_withHost s h u).trans hv, ?_⟩
  rw [effect_withHost, State.advance, State.advance, mapProgress_withHost]

theorem settle_withHost (a : Progress → Answer) (us : List Uop) :
    settle a us (s.withHost h) = (settle a us s).withHost h := by
  induction us generalizing s with
  | nil => exact finish_withHost s h a
  | cons u us ih =>
    rw [settle, settle, isVoid_withHost, State.advance, mapProgress_withHost, ih, ← State.advance,
      apply_ite (State.withHost · h)]

/-- A step of a command in progress does not depend on the host's moves (R78). -/
theorem stepBusy_withHost (p : Progress) : (s.withHost h).stepBusy p = (s.stepBusy p).withHost h := by
  cases hd : decode p.cmd with
  | error e => rw [stepBusy_of_illegal hd, stepBusy_of_illegal hd]; rfl
  | ok i =>
    cases hu : (commandOf i).uops.drop p.upc.toNat with
    | nil => rw [stepBusy_at_end hd hu, stepBusy_at_end hd hu, finish_withHost]
    | cons u us =>
      cases ht : s.performUop u with
      | error c =>
        have hv := performUop_error_iff.1 ht
        rw [stepBusy_violated hd hu hv, stepBusy_violated hd hu ((violation_withHost s h u).trans hv)]
        rfl
      | ok t =>
        rw [stepBusy_performed hd hu ht, stepBusy_performed hd hu (performUop_withHost s h ht), settle_withHost]

end

/-- A meaning asked while a command is in progress refuses (R78; log 7). -/
theorem exec_of_busy {s : State} {p : Progress} (busy : s.seq = .busy p) (i : Instr) :
    exec i s = .refused .channelBusy := by
  rw [exec_eq_perform, Command.perform, busy]

/-- A word offered meanwhile stays with the host (R78). -/
theorem step_busy_of_word_offered {s : State} {p : Progress} {w : CommandWord} {h : List HostMove} (busy : s.seq = .busy p)
    (offered : s.host = .issue w :: h ∨ s.host = .issueStepped w :: h) : step s = .next (s.stepBusy p) := by
  have goes : s.NoReset ∧ s.hostInProgress = s.host := by
    rcases offered with hh | hh <;> simp [State.NoReset, State.hostInProgress, hh]
  rw [step_busy busy goes.1, goes.2]

/-- Settles O38: the step is the sequencer's with the word left with the host, and the sequencer does not look at it. -/
theorem busyBlockTakesNoWord : Obligations.BusyBlockTakesNoWord := by
  refine ⟨fun s p w h busy offered => ?_, fun i _ _ busy => exec_of_busy busy i⟩
  refine ⟨_, step_busy_nil (s := { s with host := [] }) busy rfl, ?_⟩
  rw [step_busy_of_word_offered busy offered]
  exact congrArg _ (stepBusy_withHost { s with host := [] } s.host p)

end Sys2Proof.Machine
end

section
/-! LAWS and PROOF. A command of one μop that reads no pin, from the frame and effect of the μop (spec/40_digital_line.md
R90 to R93, R95 to R98, R100); the statements of the family 40_digital_line. -/

namespace Sys2Proof.Machine

/-- The command `i` is the one μop `u`, which reads no pin and has the pin event `e`; it answers nothing. -/
structure IsUnreadUop (i : Instr) (u : Uop) (e : Event) : Prop where
  only : (commandOf i).uops = [u]
  silent : (commandOf i).answer = fun _ => .nothing
  unread : u.answersUsed = 0
  event : ∀ v, u.pinEvent v = e

theorem lnout_isUnreadUop (l : Line) : IsUnreadUop (.lnout l) (.out l) (.cfgOut l) := ⟨rfl, rfl, rfl, fun _ => rfl⟩
theorem lnin_isUnreadUop (l : Line) : IsUnreadUop (.lnin l) (.inp l) (.cfgIn l) := ⟨rfl, rfl, rfl, fun _ => rfl⟩
theorem lnwr_isUnreadUop (l : Line) (v : Level) : IsUnreadUop (.lnwr l v) (.wr l v) (.wr l v) :=
  ⟨rfl, rfl, rfl, fun _ => rfl⟩
theorem lnrel_isUnreadUop (l : Line) : IsUnreadUop (.lnrel l) (.rel l) (.rel l) := ⟨rfl, rfl, rfl, fun _ => rfl⟩

section
variable {s : State} {i : Instr} {u : Uop} {e : Event}

theorem setCell_self (s : State) (l : Line) : s.setCell l (s.cell l) = s := by cases l <;> rfl

/-- A μop writes no cell but its own line's. -/
theorem cellAfter_eq_setCell_cell (u : Uop) (s : State) (l : Line) :
    u.cellAfter l (s.cell l) = (s.setCell u.line (u.cellAfter u.line (s.cell u.line))).cell l := by
  by_cases own : l = u.line
  · rw [own, setCell_cell]
  · rw [setCell_cell_of_ne s _ own]
    exact if_neg (Ne.symm own)

/-- A performed command of one μop that reads no pin (R27): the μop's event with its sleeps, unless the μop is void, its
write of its own line's cell, and the answer 0. -/
theorem exec_of_unread_uop {c : LineCell} (hi : IsUnreadUop i u e) (idle : s.seq = .idle)
    (goes : s.fsr.fault = false ∨ performedInFault i = true) (allowed : u.violation s = none)
    (own : u.cellAfter u.line (s.cell u.line) = c) :
    exec i s = .next { s.setCell u.line c with
      trace := s.trace ++ (if u.isVoid s then [] else Event.bracketed e), responses := s.responses ++ [0x000000] } := by
  obtain ⟨v, t, -, performed, hseq, htrace, hcell, hfsr, hhost, henv, hreads, hresp⟩ :=
    performUop_spec (s := s.begin (commandOf i).word) rfl ((violation_begin u s _).trans allowed)
  have cells : ∀ l, t.cell l = (s.setCell u.line c).cell l := fun l => by
    rw [← own, ← cellAfter_eq_setCell_cell]
    cases l <;> exact hcell _
  have hscl : t.scl = (s.setCell u.line c).scl := cells .scl
  have hsda : t.sda = (s.setCell u.line c).sda := cells .sda
  have void : u.isVoid (s.begin (commandOf i).word) = u.isVoid s := isVoid_seq _
  rw [exec_performed idle goes, hi.only, runUops, performed]
  change Host.Outcome.next (t.finish (commandOf i).answer) = _
  rw [finish_busy hseq, hi.silent]
  simp only [Host.Outcome.next.injEq, State.mk.injEq, setCell_fsr, setCell_seq, setCell_host, setCell_env, setCell_reads]
  refine ⟨hscl, hsda, hfsr, idle.symm, hhost, ?_, ?_, ?_, ?_⟩
  · rw [henv, hi.unread]; rfl
  · rw [hreads, hi.unread]; rfl
  · rw [htrace, void, hi.event]; rfl
  · rw [hresp]; rfl

/-- A command that configures its line (R91, R92): it sets the direction of a line not released, and keeps the latch. -/
theorem exec_of_config_uop {d : Dir} (hi : IsUnreadUop i u e) (ready : s.Ready) (live : u.isVoid s = false)
    (guard : u.violation s = if s.dir u.line = .released then some .useAfterCleanup else none)
    (own : u.cellAfter u.line (s.cell u.line) = ⟨d, s.latch u.line⟩) :
    (s.dir u.line ≠ .released → exec i s = .next { s.setCell u.line ⟨d, s.latch u.line⟩ with
      trace := s.trace ++ Event.bracketed e, responses := s.responses ++ [0x000000] }) ∧
    (s.dir u.line = .released → exec i s = .next (s.faulted 3 u.line)) := by
  have ⟨idle, noFault⟩ := ready
  refine ⟨fun held => ?_, fun released => exec_of_violation ready hi.only (guard.trans (if_pos released))⟩
  rw [exec_of_unread_uop hi idle (.inl noFault) (guard.trans (if_neg held)) own, live]
  rfl

/-- LNREL in every idle state (R95, R100, R165): its `REL` never faults, and is void on a line already released. -/
theorem exec_lnrel (idle : s.seq = .idle) (l : Line) :
    exec (.lnrel l) s = .next { s.setCell l ⟨.released, s.latch l⟩ with
      trace := s.trace ++ (if s.dir l == .released then [] else [.rel l]), responses := s.responses ++ [0x000000] } :=
  exec_of_unread_uop (lnrel_isUnreadUop l) idle (.inr rfl) rfl (if_pos rfl)

end

/-- Settles O12: the one μop is `OUT`, whose only precondition is a line not released. -/
theorem lnoutConfiguresOutput : Obligations.LnoutConfiguresOutput :=
  fun l _ ready => exec_of_config_uop (lnout_isUnreadUop l) ready rfl rfl (if_pos rfl)

/-- Settles O13: the one μop is `INP`, whose only precondition is a line not released. -/
theorem lninConfiguresInput : Obligations.LninConfiguresInput :=
  fun l _ ready => exec_of_config_uop (lnin_isUnreadUop l) ready rfl rfl (if_pos rfl)

/-- Settles O14: `WR` is performed on an output alone, and it keeps the direction. -/
theorem lnwrWritesAnOutput : Obligations.LnwrWritesAnOutput := by
  intro l v s ready
  have ⟨idle, noFault⟩ := ready
  have single := lnwr_isUnreadUop l v
  refine ⟨fun out => ?_, fun inp => ?_, fun released => ?_⟩
  · have allowed : (Uop.wr l v).violation s = none := by simp [Uop.violation, out]
    have own : (Uop.wr l v).cellAfter l (s.cell l) = ⟨.out, v⟩ := by rw [← out]; exact if_pos rfl
    exact exec_of_unread_uop single idle (.inl noFault) allowed own
  · have notOutput : (Uop.wr l v).violation s = some .writeOnNonOutput := by simp [Uop.violation, inp]
    exact exec_of_violation ready single.only notOutput
  · exact exec_of_violation ready single.only (violation_of_released (by simp) released)

/-- Settles O16: the `REL` of a held line emits its event and sets the direction; a released line has that cell already. -/
theorem lnrelReleasesOnce : Obligations.LnrelReleasesOnce := by
  intro l s idle
  rw [exec_lnrel idle]
  refine ⟨fun held => ?_, fun released => ?_⟩
  · rw [if_neg (by simpa using held)]
  · have same : (⟨.released, s.latch l⟩ : LineCell) = s.cell l := by rw [← released]; rfl
    rw [if_pos (by simpa using released), same, setCell_self, List.append_nil]

end Sys2Proof.Machine
end

section
/-! LAWS and PROOF. A command whose μops run to their end, and one whose later μop violates (spec/10_state.md R27;
spec/60_exceptions.md R163, R171); the sequences of the statements of the family 41_bus_signalling (R101 to R107). -/

namespace Sys2Proof.Machine

section
variable {s t : State} {i : Instr}

/-- A command all of whose μops are performed ends with its response (R27). -/
theorem exec_of_run_done {u : State} {p : Progress} (ready : s.Ready) (entry : s.begin (commandOf i).word = u)
    (run : runUops ((commandOf i).uops ++ []) u = .done t) (busy : t.seq = .busy p) :
    exec i s = .next { t with
      seq := s.seq,
      responses := t.responses ++ [responseWord 0 ((commandOf i).answer p).nack ((commandOf i).answer p).value] } := by
  have idle : s.seq = .idle := ready.1
  rw [List.append_nil] at run
  rw [exec_eq_perform, perform_ready ready, entry, run, idle, Run.conclude, finish_busy busy]

/-- A command one of whose μops violates its precondition: the μops before it stand, and the fault is raised (R163). -/
theorem exec_of_violation_after {us vs : List Uop} {w : State} {u : Uop} {c : FaultCode} (ready : s.Ready)
    (hu : (commandOf i).uops = us ++ u :: vs) (entry : s.begin (commandOf i).word = w)
    (run : runUops (us ++ []) w = .done t) (hv : u.violation t = some c) :
    exec i s = .next (State.faulted { t with seq := s.seq } c.number u.line) := by
  have idle : s.seq = .idle := ready.1
  have stops : t.performUop u = .error c := performUop_error_iff.2 hv
  rw [List.append_nil] at run
  rw [exec_eq_perform, perform_ready ready, hu, entry, runUops_append, run, done_andThen, runUops, stops, Run.conclude,
    raiseFault_of_violation hv, State.faulted, idle]

/-- `WR(L, v)` is performed on an output alone (R93). -/
theorem wr_violation_of_inp {l : Line} (v : Level) (hd : s.dir l = .inp) :
    (Uop.wr l v).violation s = some .writeOnNonOutput := by
  simp [Uop.violation, hd]

/-! ### The state a command begins in, its outputs written out -/

/-- The form in which the laws of the runs speak of a data line that is an output. -/
theorem begin_of_sdaOut (sdaOut : s.sda.dir = .out) (w : CommandWord) : s.begin w =
    ⟨s.scl, ⟨.out, s.sda.latch⟩, s.fsr, .busy ⟨w, 0, 0, 0, false⟩, s.host, s.env, s.reads, s.trace, s.responses⟩ := by
  rw [← sdaOut]; rfl

theorem begin_of_sclOut (sclOut : s.scl.dir = .out) (w : CommandWord) : s.begin w =
    ⟨⟨.out, s.scl.latch⟩, s.sda, s.fsr, .busy ⟨w, 0, 0, 0, false⟩, s.host, s.env, s.reads, s.trace, s.responses⟩ := by
  rw [← sclOut]; rfl

theorem begin_of_bothOut (out : s.BothOut) (w : CommandWord) : s.begin w =
    ⟨⟨.out, s.scl.latch⟩, ⟨.out, s.sda.latch⟩, s.fsr, .busy ⟨w, 0, 0, 0, false⟩, s.host, s.env, s.reads, s.trace,
      s.responses⟩ := by
  rw [begin_of_sclOut out.1, ← out.2]

/-! ### How the bus commands fault -/

/-- A command that begins with `WR(SDA, v); WR(SCL, _)` stops at the first of the two that finds no output (R101). -/
theorem dataWriteFaults_of_uops {v w : Level} {us : List Uop} (ready : s.Ready)
    (hu : (commandOf i).uops = .wr .sda v :: .wr .scl w :: us) : DataWriteFaults i v s := by
  refine ⟨fun inp => ?_, fun released => ?_, fun out inp => ?_, fun out released => ?_⟩
  · exact exec_of_violation ready hu (wr_violation_of_inp v inp)
  · exact exec_of_violation ready hu (violation_of_released (by simp) released)
  · exact exec_of_violation_after ready hu (us := [_]) (begin_of_sdaOut out _) (run_wr_sda ..) (wr_violation_of_inp w inp)
  · exact exec_of_violation_after ready hu (us := [_]) (begin_of_sdaOut out _) (run_wr_sda ..)
      (violation_of_released (by simp) released)

/-- `INP(SDA)` once or more: the first makes the line an input, the others emit the same events (R92). -/
theorem run_inps_sda (n : Nat) (us : List Uop) (c : LineCell) {d : LineCell} (f : Fsr) (p : Progress) (h : List HostMove)
    (e : List Level) (k : Nat) (tr : List Event) (r : List ResponseWord) (held : d.dir ≠ .released) :
    ∃ q, runUops (List.replicate (n + 1) (.inp .sda) ++ us) ⟨c, d, f, .busy p, h, e, k, tr, r⟩ =
      runUops us ⟨c, ⟨.inp, d.latch⟩, f, .busy q, h, e, k,
        tr ++ withSleeps (List.replicate (n + 1) (.cfgIn .sda)), r⟩ := by
  induction n generalizing d p tr with
  | zero => exact ⟨_, run_inp_sda _ _ _ _ _ _ _ _ _ _ held⟩
  | succ n ih =>
    obtain ⟨q, rest⟩ := ih (d := ⟨.inp, d.latch⟩) { p with upc := p.upc + 1 } (tr ++ [.sleep, .cfgIn .sda, .sleep]) (by simp)
    refine ⟨q, ?_⟩
    rw [List.replicate_succ, List.cons_append, run_inp_sda _ _ _ _ _ _ _ _ _ _ held, rest, List.append_assoc]
    rfl

/-- A command that begins with `INP(SDA)`, once or more, then `WR(SCL, _)`, faults at the first `INP` if the data line is
released, and at the write if the clock is no output (R101). -/
theorem dataReleaseFaults_of_uops {n : Nat} {w : Level} {us : List Uop} (ready : s.Ready)
    (hu : (commandOf i).uops = List.replicate (n + 1) (.inp .sda) ++ .wr .scl w :: us) : DataReleaseFaults i (n + 1) s := by
  have dataReleased (held : s.sda.dir ≠ .released) :=
    run_inps_sda n [] s.scl s.fsr ⟨(commandOf i).word, 0, 0, 0, false⟩ s.host s.env s.reads s.trace s.responses held
  refine ⟨fun released => ?_, fun held inp => ?_, fun held released => ?_⟩
  · exact exec_of_violation ready hu (violation_of_released (by simp) released)
  · obtain ⟨q, run⟩ := dataReleased held
    exact exec_of_violation_after ready hu rfl run (wr_violation_of_inp w inp)
  · obtain ⟨q, run⟩ := dataReleased held
    exact exec_of_violation_after ready hu rfl run (violation_of_released (by simp) released)

/-! ### How they run to their end -/

/-- The response of a command that returns nothing is 0 (R75). -/
theorem responseWord_of_nothing : responseWord 0 Answer.nothing.nack Answer.nothing.value = 0x000000 := by decide

/-- A command with both lines outputs that answers nothing, whose run leaves the clock low and the data line at `v`. -/
theorem exec_of_silent_run {v : Level} {pins : List Event} {q : Progress} (ready : s.Ready) (out : s.BothOut)
    (run : runUops ((commandOf i).uops ++ [])
        ⟨⟨.out, s.scl.latch⟩, ⟨.out, s.sda.latch⟩, s.fsr, .busy ⟨(commandOf i).word, 0, 0, 0, false⟩, s.host, s.env, s.reads,
          s.trace, s.responses⟩ =
      .done ⟨⟨.out, false⟩, ⟨.out, v⟩, s.fsr, .busy q, s.host, s.env, s.reads, s.trace ++ withSleeps pins, s.responses⟩)
    (silent : (commandOf i).answer = fun _ => .nothing) :
    exec i s = .next { s with
      scl := ⟨.out, false⟩, sda := ⟨.out, v⟩, trace := s.trace ++ withSleeps pins,
      responses := s.responses ++ [0x000000] } := by
  rw [exec_of_run_done ready (begin_of_bothOut out _) run rfl, silent, responseWord_of_nothing]

theorem exec_start (ready : s.Ready) (out : s.BothOut) : exec .start s = .next { s with
    scl := ⟨.out, false⟩, sda := ⟨.out, false⟩, trace := s.trace ++ withSleeps startPins,
    responses := s.responses ++ [0x000000] } :=
  exec_of_silent_run ready out (run_start ..) rfl

theorem exec_stop (ready : s.Ready) (out : s.BothOut) : exec .stop s = .next { s with
    scl := ⟨.out, false⟩, sda := ⟨.out, true⟩, trace := s.trace ++ withSleeps stopPins,
    responses := s.responses ++ [0x000000] } :=
  exec_of_silent_run ready out (run_stop ..) rfl

theorem exec_wbit (ready : s.Ready) (out : s.BothOut) (b : Level) : exec (.wbit b) s = .next { s with
    scl := ⟨.out, false⟩, sda := ⟨.out, b⟩, trace := s.trace ++ withSleeps (bitSent b),
    responses := s.responses ++ [0x000000] } :=
  exec_of_silent_run ready out (run_wbit ..) rfl

theorem exec_sack (ready : s.Ready) (out : s.BothOut) : exec .sack s = .next { s with
    scl := ⟨.out, false⟩, sda := ⟨.out, true⟩,
    trace := s.trace ++ withSleeps [.wr .sda false, .wr .scl true, .wr .scl false, .wr .sda true],
    responses := s.responses ++ [0x000000] } :=
  exec_of_silent_run ready out (run_sack ..) rfl

/-- RBIT and CACK, one heard bit each (R105, R107). -/
theorem exec_of_heard_bit (listens : i = .rbit ∨ i = .cack) (ready : s.Ready) (sclOut : s.scl.dir = .out)
    (held : s.sda.dir ≠ .released) : exec i s = .next { s with
      scl := ⟨.out, false⟩, sda := ⟨.inp, s.sda.latch⟩, env := s.env.tail, reads := s.reads + 1,
      trace := s.trace ++ withSleeps (bitHeard (heardLevel s.env s.reads s.trace)),
      responses := s.responses ++ [responseWord 0 0 (levelBits 16 (heardLevel s.env s.reads s.trace))] } := by
  have uops : (commandOf i).uops = rbitUops .ret := by rcases listens with rfl | rfl <;> rfl
  have answer : (commandOf i).answer = .level := by rcases listens with rfl | rfl <;> rfl
  rw [exec_of_run_done ready (begin_of_sclOut sclOut _) (uops ▸ run_rbit (hd := held) ..) rfl, answer]
  rfl

end

/-- Settles O17: START's μops run to their end, or one of the first two finds no output. -/
theorem startSequence : Obligations.StartSequence := fun _ ready => ⟨exec_start ready, dataWriteFaults_of_uops ready rfl⟩

/-- Settles O18: STOP's μops run to their end, or one of the first two finds no output. -/
theorem stopSequence : Obligations.StopSequence := fun _ ready => ⟨exec_stop ready, dataWriteFaults_of_uops ready rfl⟩

/-- Settles O19: WBIT's μops run to their end, or one of the first two finds no output. -/
theorem wbitSequence : Obligations.WbitSequence :=
  fun b _ ready => ⟨fun out => exec_wbit ready out b, dataWriteFaults_of_uops ready rfl⟩

/-- Settles O20: SACK's μops run to their end, or one of the first two finds no output. -/
theorem sackSequence : Obligations.SackSequence := fun _ ready => ⟨exec_sack ready, dataWriteFaults_of_uops ready rfl⟩

/-- Settles O21: both commands hear one bit; their `INP` meets a released line, or their `WR` a clock that is no output. -/
theorem rbitAndCackSequence : Obligations.RbitAndCackSequence := by
  intro i s listens ready
  refine ⟨fun sclOut held => ⟨_, fun a rest env => ?_, exec_of_heard_bit listens ready sclOut held⟩, ?_⟩
  · rw [env, heardLevel_cons]
  · rcases listens with rfl | rfl <;> exact dataReleaseFaults_of_uops (n := 0) ready rfl

end Sys2Proof.Machine
end

section
/-! LAWS. The byte commands and the register read performed to their end (spec/42_byte_transfer.md R121, R122;
spec/43_register_transaction.md R130, R131). -/

namespace Sys2Proof.Machine

/-- Three AckBits collected one after the other are the bits of NACK, the last one highest (R131). -/
theorem setNack_three (nk : BitVec 3) (a1 a2 a3 : Level) : setNack (setNack (setNack nk 0 a1) 1 a2) 2 a3 =
    (BitVec.ofBool a3 ++ BitVec.ofBool a2 ++ BitVec.ofBool a1 : BitVec (1 + 1 + 1)) := by
  revert nk a1 a2 a3; decide

/-- A RDREG entered with `acc = 0` (R130): its steps run one after the other, whatever is heard in them (R133). -/
theorem run_rdreg (dev reg : Byte) (us : List Uop) (x y : Level) (f : Fsr) {p : Progress} (h : List HostMove)
    (e : List Level) (n : Nat) (t : List Event) (r : List ResponseWord) (ha : p.acc = 0) :
    ∃ (a1 a2 a3 : Level) (b : Byte),
      (∀ x1 x2 x3 c rest, e = x1 :: x2 :: x3 :: (msbFirst c ++ rest) → a1 = x1 ∧ a2 = x2 ∧ a3 = x3 ∧ b = c) ∧
      runUops (rdregUops dev reg ++ us) ⟨⟨.out, x⟩, ⟨.out, y⟩, f, .busy p, h, e, n, t, r⟩ =
        runUops us ⟨⟨.out, false⟩, ⟨.out, true⟩, f, .busy { p with
            upc := p.upc + 144, acc := b, nk := BitVec.ofBool a3 ++ BitVec.ofBool a2 ++ BitVec.ofBool a1 },
          h, e.drop 11, n + 11, t ++ withSleeps (rdregPins dev reg a1 a2 a3 b), r⟩ := by
  simp only [rdregUops, List.append_assoc]
  rw [run_stop, run_start, run_sendb]
  generalize heard1 : ackLevel (writeAddress dev) _ _ _ = a1
  rw [run_sendb]
  generalize heard2 : ackLevel reg _ _ _ = a2
  rw [run_start, run_sendb]
  generalize heard3 : ackLevel (readAddress dev) _ _ _ = a3
  rw [run_recvb _ _ _ _ _ _ _ _ _ _ (by simp) (by simpa [Sink.collect] using ha), run_stop]
  generalize heard4 : heardByte _ _ _ = b
  refine ⟨a1, a2, a3, b, ?_, ?_⟩
  · rintro x1 x2 x3 c rest rfl
    exact ⟨heard1.symm, heard2.symm, heard3.symm, heard4.symm.trans (heardByte_append ..)⟩
  · simp [Sink.collect, setNack_three, BitVec.add_assoc, rdregPins, withSleeps_append]

section
variable {s : State}

/-- A SENDB with both lines outputs (R121). -/
theorem exec_sendb (ready : s.Ready) (out : s.BothOut) (b : Byte) : exec (.sendb b) s = .next { s with
    scl := ⟨.out, false⟩, sda := ⟨.out, b.getLsbD 0⟩, env := s.env.tail, reads := s.reads + 1,
    trace := s.trace ++ withSleeps (sendbPins b (ackLevel b s.env s.reads s.trace)),
    responses := s.responses ++ [responseWord 0 0 (levelBits 16 (ackLevel b s.env s.reads s.trace))] } := by
  rw [exec_of_run_done (i := .sendb b) ready (begin_of_bothOut out _) (run_sendb ..) rfl]
  rfl

/-- A RECVB with the clock an output and the data line not released (R122). -/
theorem exec_recvb (ready : s.Ready) (sclOut : s.scl.dir = .out) (held : s.sda.dir ≠ .released) :
    exec .recvb s = .next { s with
      scl := ⟨.out, false⟩, sda := ⟨.out, true⟩, env := s.env.drop 8, reads := s.reads + 8,
      trace := s.trace ++ withSleeps (recvbPins (heardByte s.env s.reads s.trace)),
      responses := s.responses ++ [responseWord 0 0 ((heardByte s.env s.reads s.trace).setWidth 16)] } := by
  rw [exec_of_run_done (i := .recvb) ready (begin_of_sclOut sclOut _) (run_recvb (hd := held) (ha := rfl) ..) rfl]
  rfl

/-- A RDREG with both lines outputs (R130, R131). -/
theorem exec_rdreg (ready : s.Ready) (out : s.BothOut) (dev reg : Byte) : ∃ (a1 a2 a3 : Level) (b : Byte),
    (∀ x1 x2 x3 c rest, s.env = x1 :: x2 :: x3 :: (msbFirst c ++ rest) → a1 = x1 ∧ a2 = x2 ∧ a3 = x3 ∧ b = c) ∧
    exec (.rdreg dev reg) s = .next { s with
      scl := ⟨.out, false⟩, sda := ⟨.out, true⟩, env := s.env.drop 11, reads := s.reads + 11,
      trace := s.trace ++ withSleeps (rdregPins dev reg a1 a2 a3 b),
      responses := s.responses ++
        [responseWord 0 (BitVec.ofBool a3 ++ BitVec.ofBool a2 ++ BitVec.ofBool a1) (b.setWidth 16)] } := by
  obtain ⟨a1, a2, a3, b, fixed, ran⟩ := run_rdreg dev reg [] s.scl.latch s.sda.latch s.fsr
    (p := ⟨(commandOf (.rdreg dev reg)).word, 0, 0, 0, false⟩) s.host s.env s.reads s.trace s.responses rfl
  refine ⟨a1, a2, a3, b, fixed, ?_⟩
  rw [exec_of_run_done (i := .rdreg dev reg) ready (begin_of_bothOut out _) ran rfl]
  rfl

end

end Sys2Proof.Machine
end

section
/-! LAWS and PROOF. The bus commands on the wire, entered with the clock low (spec/41_bus_signalling.md R108): each adds a
segment to the trace. -/

namespace Sys2Proof.Machine

/-- What a RDREG shows in the usual shorthand (R134), `P S wa a1 reg a2 Sr ra a3 data A P`. -/
def seenRdreg (dev reg : Byte) (a1 a2 a3 : Level) (data : Byte) : List Seen :=
  [Seen.condition .stop, Seen.condition .start] ++ seenByte (writeAddress dev) ++ [Seen.bit a1] ++ seenByte reg ++
    [Seen.bit a2] ++ [Seen.condition .start] ++ seenByte (readAddress dev) ++ [Seen.bit a3] ++ seenByte data ++
    [Seen.bit false] ++ [Seen.condition .stop]

/-- The pads after a START: data low (R102). -/
theorem pads_start (w z x y u : Bool) :
    (withSleeps startPins).foldl Pads.after (clockLow w z (driving x y u)) = clockLow w z (driving x y false) := rfl

/-- The pads after a STOP: data high (R103). -/
theorem pads_stop (w z x y u : Bool) :
    (withSleeps stopPins).foldl Pads.after (clockLow w z (driving x y u)) = clockLow w z (driving x y true) := rfl

/-- A RDREG (R130, R134). -/
theorem seg_rdreg {outside : Nat → Line → Level} (n : Nat) (w z y u : Bool) (dev reg : Byte) (a1 a2 a3 : Level)
    (data : Byte) : Segment outside n (clockLow w z (driving false y u)) (withSleeps (rdregPins dev reg a1 a2 a3 data))
      [.stop, .start, .start, .stop] 40 (seenRdreg dev reg a1 a2 a3 data) := by
  have steps := (seg_stop (outside := outside) n w z false y u).append (pads_stop ..)
    ((seg_start _ w z false y true).append (pads_start ..)
    ((seg_sendb _ w z false y false (writeAddress dev) a1).append (pads_sendb ..)
    ((seg_sendb _ w z false y _ reg a2).append (pads_sendb ..)
    ((seg_start _ w z false y _).append (pads_start ..)
    ((seg_sendb _ w z false y false (readAddress dev) a3).append (pads_sendb ..)
    ((seg_recvb _ w z _ data).append (pads_recvb ..) (seg_stop _ w z false y true)))))))
  simp only [rdregPins, withSleeps_append, seenRdreg, List.append_assoc]
  exact steps

/-- A command adds to the trace a segment with the conditions and the clock pulses of its row, in which an observer beside a
slave that keeps the rules of the bus sees `seen`. -/
def AddsSegment (i : Instr) (s t : State) (seen : List Seen) : Prop :=
  ∃ pins, t.trace = s.trace ++ withSleeps pins ∧ ∀ outside,
    Segment outside 0 s.pads (withSleeps pins) (conditionsOf i) (clockPulses i) seen

section
variable {s t u : State} {i : Instr} {seen : List Seen} {outside : Nat → Line → Level} {es : List Event}

theorem exec_unique (hu : exec i s = .next u) (ht : exec i s = .next t) : u = t :=
  Host.Outcome.next.inj (hu.symm.trans ht)

variable (low : s.scl = ⟨.out, false⟩)
include low

theorem bothOut_of_low (out : s.sda.dir = .out) : s.BothOut := ⟨by rw [low], out⟩

theorem pads_of_clockLow : s.pads = clockLow false true s.sda.pads := by
  rw [State.pads, low]; rfl

theorem pads_of_sdaOut (out : s.sda.dir = .out) : s.pads = clockLow false true (driving false true s.sda.latch) := by
  rw [pads_of_clockLow low, LineCell.pads, out]; rfl

/-- An observer begins to look with the clock low. -/
theorem pads_wires_scl (o : Line → Level) : (s.pads.wires o).scl = false := by
  rw [pads_of_clockLow low]; rfl

/-- Whatever the outside does, the added events show the conditions and the clock pulses of the command's row. -/
theorem AddsSegment.conditions_edges (adds : AddsSegment i s t seen) (added : t.trace = s.trace ++ es) :
    conditionsSeen outside 0 s.pads es = conditionsOf i ∧ edgesObserved outside s.pads es = pulses (clockPulses i) := by
  obtain ⟨pins, trace, segment⟩ := adds
  obtain rfl : es = withSleeps pins := List.append_cancel_left (added.symm.trans trace)
  exact ⟨(segment outside).conditions, (segment outside).edges ⟨_, none⟩ (pads_wires_scl low _)⟩

/-- Beside a slave that keeps the rules of the bus the segment is all that is seen. -/
theorem AddsSegment.observed_eq (adds : AddsSegment i s t seen) (added : t.trace = s.trace ++ es)
    (rules : slaveKeepsRules outside 0 s.pads es = true) : observed outside s.pads es = seen := by
  obtain ⟨pins, trace, segment⟩ := adds
  obtain rfl : es = withSleeps pins := List.append_cancel_left (added.symm.trans trace)
  exact (segment outside).seen rules ⟨_, none⟩ (pads_wires_scl low _)

end

/-! ### The segment of each bus command -/

section
variable {s : State} (ready : s.Ready) (low : s.scl = ⟨.out, false⟩)
include ready low

section
variable (out : s.sda.dir = .out)
include out

theorem start_adds : ∃ t, exec .start s = .next t ∧ AddsSegment .start s t [.condition .start] :=
  ⟨_, exec_start ready (bothOut_of_low low out), startPins, rfl, fun _ => pads_of_sdaOut low out ▸ seg_start ..⟩

theorem stop_adds : ∃ t, exec .stop s = .next t ∧ AddsSegment .stop s t [.condition .stop] :=
  ⟨_, exec_stop ready (bothOut_of_low low out), stopPins, rfl, fun _ => pads_of_sdaOut low out ▸ seg_stop ..⟩

theorem wbit_adds (b : Level) : ∃ t, exec (.wbit b) s = .next t ∧ AddsSegment (.wbit b) s t [.bit b] :=
  ⟨_, exec_wbit ready (bothOut_of_low low out) b, bitSent b, rfl, fun _ => pads_of_sdaOut low out ▸ seg_bitSent ..⟩

theorem sack_adds : ∃ t, exec .sack s = .next t ∧ AddsSegment .sack s t [.bit false] :=
  ⟨_, exec_sack ready (bothOut_of_low low out), _, rfl, fun _ => pads_of_sdaOut low out ▸ seg_sack ..⟩

/-- The acknowledge slot shows the AckBit the SENDB answers (R121). -/
theorem sendb_adds (b : Byte) : ∃ t a, exec (.sendb b) s = .next t ∧
    t.responses = s.responses ++ [responseWord 0 0 (levelBits 16 a)] ∧
    AddsSegment (.sendb b) s t (seenByte b ++ [.bit a]) :=
  ⟨_, _, exec_sendb ready (bothOut_of_low low out) b, rfl, _, rfl, fun _ => pads_of_sdaOut low out ▸ seg_sendb ..⟩

/-- The acknowledges and the data seen are those the RDREG answers (R130, R134). -/
theorem rdreg_adds (dev reg : Byte) : ∃ t a1 a2 a3 data, exec (.rdreg dev reg) s = .next t ∧
    t.responses = s.responses ++
      [responseWord 0 (BitVec.ofBool a3 ++ BitVec.ofBool a2 ++ BitVec.ofBool a1) (data.setWidth 16)] ∧
    AddsSegment (.rdreg dev reg) s t (seenRdreg dev reg a1 a2 a3 data) := by
  obtain ⟨a1, a2, a3, data, -, performed⟩ := exec_rdreg ready (bothOut_of_low low out) dev reg
  exact ⟨_, a1, a2, a3, data, performed, rfl, _, rfl, fun _ => pads_of_sdaOut low out ▸ seg_rdreg ..⟩

end

section
variable (held : s.sda.dir ≠ .released)
include held

/-- The bit slot shows the level RBIT or CACK answers (R105, R107). -/
theorem heard_bit_adds {i : Instr} (listens : i = .rbit ∨ i = .cack) : ∃ t v, exec i s = .next t ∧
    t.responses = s.responses ++ [responseWord 0 0 (levelBits 16 v)] ∧ AddsSegment i s t [.bit v] := by
  have row : conditionsOf i = [] ∧ clockPulses i = 1 := by rcases listens with rfl | rfl <;> exact ⟨rfl, rfl⟩
  refine ⟨_, _, exec_of_heard_bit listens ready (by rw [low]) held, rfl, _, rfl, fun _ => ?_⟩
  rw [row.1, row.2, pads_of_clockLow low]
  exact seg_bitHeard ..

/-- The bit slots show the byte RECVB answers, the last one its acknowledge (R122). -/
theorem recvb_adds : ∃ t b, exec .recvb s = .next t ∧
    t.responses = s.responses ++ [responseWord 0 0 (b.setWidth 16)] ∧
    AddsSegment .recvb s t (seenByte b ++ [.bit false]) :=
  ⟨_, _, exec_recvb ready (by rw [low]) held, rfl, _, rfl, fun _ => pads_of_clockLow low ▸ seg_recvb ..⟩

end

/-- Every bus command entered with the clock low and the data line as it needs it (R196) adds a segment. -/
theorem bus_command_adds {i : Instr} (bus : isBusCommand i = true) (needs : needsSdaDir i s.sda.dir = true) :
    ∃ t seen, exec i s = .next t ∧ AddsSegment i s t seen := by
  cases i with
  | start => obtain ⟨t, ht, adds⟩ := start_adds ready low (eq_of_beq needs); exact ⟨t, _, ht, adds⟩
  | stop => obtain ⟨t, ht, adds⟩ := stop_adds ready low (eq_of_beq needs); exact ⟨t, _, ht, adds⟩
  | wbit b => obtain ⟨t, ht, adds⟩ := wbit_adds ready low (eq_of_beq needs) b; exact ⟨t, _, ht, adds⟩
  | sack => obtain ⟨t, ht, adds⟩ := sack_adds ready low (eq_of_beq needs); exact ⟨t, _, ht, adds⟩
  | rbit => obtain ⟨t, v, ht, -, adds⟩ := heard_bit_adds ready low (bne_iff_ne.1 needs) (.inl rfl); exact ⟨t, _, ht, adds⟩
  | cack => obtain ⟨t, v, ht, -, adds⟩ := heard_bit_adds ready low (bne_iff_ne.1 needs) (.inr rfl); exact ⟨t, _, ht, adds⟩
  | sendb b => obtain ⟨t, a, ht, -, adds⟩ := sendb_adds ready low (eq_of_beq needs) b; exact ⟨t, _, ht, adds⟩
  | recvb => obtain ⟨t, b, ht, -, adds⟩ := recvb_adds ready low (bne_iff_ne.1 needs); exact ⟨t, _, ht, adds⟩
  | rdreg dev reg =>
    obtain ⟨t, a1, a2, a3, data, ht, -, adds⟩ := rdreg_adds ready low (eq_of_beq needs) dev reg
    exact ⟨t, _, ht, adds⟩
  | lnout _ | lnin _ | lnwr _ _ | lnrd _ | lnrel _ | dec16 _ _ | cleanup => cases bus

end

/-- What a command that adds a segment lets an observer see, with the answer `R v` the segment's `S v` depends on. -/
theorem answer_observed {α : Type} {R : α → List ResponseWord} {S : α → List Seen} {i : Instr} {s t : State}
    {outside : Nat → Line → Level} {es : List Event} (low : s.scl = ⟨.out, false⟩) (ht : exec i s = .next t)
    (added : t.trace = s.trace ++ es) (rules : slaveKeepsRules outside 0 s.pads es = true)
    (adds : ∃ u v, exec i s = .next u ∧ u.responses = R v ∧ AddsSegment i s u (S v)) :
    ∃ v, t.responses = R v ∧ observed outside s.pads es = S v := by
  obtain ⟨u, v, hu, response, adds⟩ := adds
  obtain rfl := exec_unique hu ht
  exact ⟨v, response, adds.observed_eq low added rules⟩

/-- Settles O46: the conditions and the edges of the segment a bus command adds. -/
theorem conditionsOfThePrimitives : Obligations.ConditionsOfThePrimitives := by
  intro i s t outside es bus ready low needs ht added
  obtain ⟨u, seen, hu, adds⟩ := bus_command_adds ready low bus needs
  obtain rfl := exec_unique hu ht
  exact adds.conditions_edges low added

/-- Settles O53: what is seen of the segment each primitive adds, and the answer it has. -/
theorem bitsAndConditionsSeen : Obligations.BitsAndConditionsSeen := by
  intro i s t outside es ready low needs ht added rules
  have silent {seen} (adds : ∃ u, exec i s = .next u ∧ AddsSegment i s u seen) : observed outside s.pads es = seen := by
    obtain ⟨u, hu, adds⟩ := adds
    obtain rfl := exec_unique hu ht
    exact adds.observed_eq low added rules
  refine ⟨?start, ?stop, ?wbit, ?sack, ?heard, ?sendb, ?recvb⟩
  case start => rintro rfl; exact silent (start_adds ready low (eq_of_beq needs))
  case stop => rintro rfl; exact silent (stop_adds ready low (eq_of_beq needs))
  case wbit => rintro b rfl; exact silent (wbit_adds ready low (eq_of_beq needs) b)
  case sack => rintro rfl; exact silent (sack_adds ready low (eq_of_beq needs))
  case heard =>
    intro listens
    have held : s.sda.dir ≠ .released := by rcases listens with rfl | rfl <;> exact bne_iff_ne.1 needs
    exact answer_observed low ht added rules (heard_bit_adds ready low held listens)
  case sendb => rintro b rfl; exact answer_observed low ht added rules (sendb_adds ready low (eq_of_beq needs) b)
  case recvb => rintro rfl; exact answer_observed low ht added rules (recvb_adds ready low (bne_iff_ne.1 needs))

end Sys2Proof.Machine
end

section
/-! LAWS and PROOF. A command of one μop on the wire while the outside holds its levels (spec/41_bus_signalling.md R108;
spec/10_state.md R23). -/

namespace Sys2Proof.Machine

/-! ### Instants at which nothing changes -/

@[simp] theorem conditionBetween_self (w : WireState) : conditionBetween w w = none := by simp [conditionBetween]

@[simp] theorem clockEdgeBetween_self (w : WireState) : clockEdgeBetween w w = none := by simp [clockEdgeBetween]

/-- An observer keeps what it has, and sees nothing, while the wires stay as they are. -/
theorem watch_last (o : Observer) (ws : List WireState) : o.watch (o.last :: ws) = o.watch ws := by
  simp [Observer.watch, Observer.sees, Observer.after]

/-- An observer that holds no level sees no bit at the next instant. -/
theorem watch_unheld (w b : WireState) (ws : List WireState) : Observer.watch ⟨w, none⟩ (b :: ws) =
    (conditionBetween w b).toList.map .condition ++ (Observer.after ⟨w, none⟩ b).watch ws := by
  rw [Observer.watch, Observer.sees]
  cases clockEdgeBetween w b with
  | none => simp
  | some edge => cases edge <;> simp

/-- The wires change once, or not at all: all that is seen is the condition between before and after. -/
theorem watch_one_change (w b : WireState) : Observer.watch ⟨w, none⟩ [w, w, w, b, b, b] =
    (conditionBetween w b).toList.map .condition := by
  have before (ws : List WireState) : Observer.watch ⟨w, none⟩ (w :: ws) = Observer.watch ⟨w, none⟩ ws := watch_last _ ws
  have after (ws : List WireState) :
      (Observer.after ⟨w, none⟩ b).watch (b :: ws) = (Observer.after ⟨w, none⟩ b).watch ws := watch_last _ ws
  rw [before, before, before, watch_unheld, after, after, Observer.watch, List.append_nil]

/-! ### One μop's events -/

section
variable (o : Line → Level) (p : Pads) (e : Event)

/-- All an observer sees of the events of one μop is the condition between the wires before and after them, -/
theorem observed_bracketed : observed (fun _ => o) p (Event.bracketed e) =
    (conditionBetween (p.wires o) (((Event.bracketed e).foldl Pads.after p).wires o)).toList.map .condition := by
  cases e with
  | sleep => simp [Event.bracketed, observed, wireHistory, Observer.watch]
  | cfgOut l | cfgIn l | wr l v | rd l v => exact watch_one_change _ _
  | rel l =>
    refine (watch_last ⟨p.wires o, none⟩ _).trans ((watch_unheld ..).trans ?_)
    simp [wireHistory, Observer.watch, Event.bracketed]

/-- and the clock edge between them. -/
theorem edgesObserved_bracketed : edgesObserved (fun _ => o) p (Event.bracketed e) =
    (clockEdgeBetween (p.wires o) (((Event.bracketed e).foldl Pads.after p).wires o)).toList := by
  cases e <;> simp [Event.bracketed, edgesObserved, wireHistory, clockEdges, Pads.after]

end

section
variable {s : State} {i : Instr}

/-- The wires of a state are those of its pads (R23, R173). -/
theorem wires_eq_pads_wires (s : State) (o : Line → Level) : s.wires o = s.pads.wires o := by
  have wire (l : Line) (v : Level) : s.wire l v = (s.cell l).pads.wire v := by
    rw [State.wire, State.dir, LinePads.wire, LineCell.pads]
    cases (s.cell l).dir <;> rfl
  exact congrArg₂ WireState.mk (wire .scl _) (wire .sda _)

/-- A command of one μop, performed or not, adds the events of at most one pin event (none is written `sleep`), and the pads
follow them (R27, R163, R165). -/
theorem exec_single_uop_events {u : Uop} (idle : s.seq = .idle) (hu : (commandOf i).uops = [u]) : ∃ t e,
    exec i s = .next t ∧ t.trace = s.trace ++ Event.bracketed e ∧ t.pads = (Event.bracketed e).foldl Pads.after s.pads := by
  rcases performed_or_pending s.fsr i with goes | ⟨hf, hi⟩
  · have begun := exec_performed idle goes
    rw [hu, runUops] at begun
    cases hp : (s.begin (commandOf i).word).performUop u with
    | error c =>
      rw [hp] at begun
      exact ⟨_, .sleep, begun, (List.append_nil _).symm, rfl⟩
    | ok t =>
      have allowed := (performUop_ok_iff.1 hp).1
      obtain ⟨v, t', -, performed, busy, trace, -⟩ := performUop_spec rfl allowed
      obtain rfl : t' = t := Except.ok.inj (performed.symm.trans hp)
      obtain ⟨pins, extended, pads⟩ := (performUop_extends hp).trace
      rw [hp] at begun
      have events : withSleeps pins =
          Event.bracketed (if u.isVoid (s.begin (commandOf i).word) then .sleep else u.pinEvent v) := by
        rw [apply_ite Event.bracketed]
        exact List.append_cancel_left (extended.symm.trans trace)
      rw [events] at extended pads
      exact ⟨_, _, begun.trans (congrArg _ (finish_busy busy _)), extended, pads⟩
  · exact ⟨_, .sleep, exec_pending idle hf hi, (List.append_nil _).symm, rfl⟩

/-- Each line command is one μop (R96 to R100). -/
theorem line_command_uops (line : isLineCommand i = true) : ∃ u, (commandOf i).uops = [u] := by
  cases i with
  | lnout _ | lnin _ | lnwr _ _ | lnrd _ | lnrel _ => exact ⟨_, rfl⟩
  | start | stop | wbit _ | rbit | sack | cack | sendb _ | recvb | rdreg _ _ | dec16 _ _ | cleanup => cases line

end

/-- Settles O52: the one μop's events change the wires once at most, whatever the change is. -/
theorem lineCommandsOnTheWire : Obligations.LineCommandsOnTheWire := by
  intro i s o line idle
  obtain ⟨u, hu⟩ := line_command_uops line
  obtain ⟨t, e, ht, trace, pads⟩ := exec_single_uop_events idle hu
  refine ⟨t, Event.bracketed e, ht, trace, ?_⟩
  rw [wires_eq_pads_wires, wires_eq_pads_wires, pads]
  exact ⟨observed_bracketed o s.pads e, edgesObserved_bracketed o s.pads e⟩

end Sys2Proof.Machine
end

section
/-! LAWS and PROOF. The byte commands (spec/42_byte_transfer.md R121, R122), and the record an observer makes of them at the
clock's rises (R123). -/

namespace Sys2Proof.Machine

/-- Settles O22: SENDB's μops run to their end, or one of the first two finds no output. -/
theorem sendbSequence : Obligations.SendbSequence := by
  intro b s ready
  refine ⟨fun out => ⟨_, fun x rest env => ?_, exec_sendb ready out b⟩, dataWriteFaults_of_uops ready rfl⟩
  rw [env, ackLevel_cons]

/-- Settles O23: RECVB's μops run to their end, or its first `INP` meets a released line, or its first `WR` a clock that is
no output. -/
theorem recvbSequence : Obligations.RecvbSequence := by
  intro s ready
  refine ⟨fun sclOut held => ⟨_, fun p rest env => ?_, exec_recvb ready sclOut held⟩,
    dataReleaseFaults_of_uops (n := 1) ready rfl⟩
  rw [env, heardByte_append]

/-! ### The samples at the clock's rises -/

/-- The record of a trace goes on from the pads its first part leaves. -/
theorem risingSamples_append (p : Pads) (a b : List Event) :
    risingSamples p (a ++ b) = risingSamples p a ++ risingSamples (a.foldl Pads.after p) b := by
  induction a generalizing p with
  | nil => rfl
  | cons e a ih => simp only [List.cons_append, risingSamples, ih, List.foldl_cons, List.append_assoc]

/-- A bit sent on a driven data line is the sample of its slot (R104). -/
theorem risingSamples_bitSent {p : Pads} (driven : p.sda.oe = true) (v : Level) :
    risingSamples p (withSleeps (bitSent v)) = [some v] := by
  calc risingSamples p (withSleeps (bitSent v))
    _ = [if p.sda.oe then some v else none] := rfl
    _ = [some v] := by rw [if_pos driven]

/-- The samples of bits sent one after the other are the bits. -/
theorem risingSamples_bitsSent {p : Pads} (driven : p.sda.oe = true) (vs : List Level) :
    risingSamples p (withSleeps (vs.flatMap bitSent)) = vs.map some := by
  induction vs generalizing p with
  | nil => rfl
  | cons v vs ih =>
    have stillDriven : ((withSleeps (bitSent v)).foldl Pads.after p).sda.oe = true := driven
    rw [List.flatMap_cons, withSleeps_append, risingSamples_append, risingSamples_bitSent driven, ih stillDriven]
    rfl

/-- In a slot in which the block listens it drives nothing, whatever it drove before (R105, R107). -/
theorem risingSamples_bitHeard (p : Pads) (v : Level) : risingSamples p (withSleeps (bitHeard v)) = [none] := rfl

theorem risingSamples_bitsHeard (p : Pads) (vs : List Level) :
    risingSamples p (withSleeps (vs.flatMap bitHeard)) = List.replicate vs.length none := by
  induction vs generalizing p with
  | nil => rfl
  | cons v vs ih =>
    rw [List.flatMap_cons, withSleeps_append, risingSamples_append, risingSamples_bitHeard, ih]
    rfl

/-- The record of a SENDB: its bits, then the slot in which it listens (R123). -/
theorem risingSamples_sendb {p : Pads} (driven : p.sda.oe = true) (b : Byte) (a : Level) :
    risingSamples p (withSleeps (sendbPins b a)) = (msbFirst b).map some ++ [none] := by
  rw [sendbPins, List.append_assoc, List.append_assoc, withSleeps_append, risingSamples_append,
    risingSamples_bitsSent driven]
  rfl

/-- The record of a RECVB: eight slots in which it listens, then its acknowledge, driven low (R123). -/
theorem risingSamples_recvb (p : Pads) (b : Byte) :
    risingSamples p (withSleeps (recvbPins b)) = List.replicate 8 none ++ [some false] := by
  rw [recvbPins, List.append_assoc, List.append_assoc, withSleeps_append, risingSamples_append, withSleeps_append,
    risingSamples_append, risingSamples_bitsHeard]
  rfl

/-- A byte is what its own bits spell (R53). -/
theorem byteOfBits_msbFirst (b : Byte) : byteOfBits (msbFirst b) = b := by
  revert b; decide

/-- Settles O47: the events each command adds are its pin events between sleeps, whose record is known; the byte RECVB hears
is the one the environment's list spells. -/
theorem observerRecoversTheByte : Obligations.ObserverRecoversTheByte := by
  refine ⟨fun b s ready out => ?_, fun p rest s ready sclOut held env => ?_⟩
  · have driven : s.pads.sda.oe = true := beq_iff_eq.2 out.2
    exact ⟨_, _, exec_sendb ready out b, rfl, risingSamples_sendb driven b _, byteOfBits_msbFirst b⟩
  · have performed := exec_recvb ready sclOut held
    rw [env, heardByte_append] at performed
    exact ⟨_, _, performed, rfl, rfl, risingSamples_recvb s.pads p⟩

end Sys2Proof.Machine
end

section
/-! LAWS and PROOF. The register read, and the steps it is composed of (spec/43_register_transaction.md R130 to R133). -/

namespace Sys2Proof.Machine

/-- Settles O24: RDREG's μops run to their end, or one of the first two finds no output. -/
theorem rdregSequence : Obligations.RdregSequence :=
  fun dev reg _ ready => ⟨fun out => exec_rdreg ready out dev reg, dataWriteFaults_of_uops ready rfl⟩

/-! ### What μops do at the pins, wherever the levels read go -/

/-- A μop without the place its level goes to: what it does at the pins (R27, R94). -/
def Uop.pinAction : Uop → Uop
  | .out l => .out l
  | .inp l => .inp l
  | .wr l v => .wr l v
  | .rd l _ => .rd l .ret
  | .rel l => .rel l

/-- Two states that differ in `SEQ` and in the responses at most. -/
def SameAtPins (s t : State) : Prop := ∃ q r, t = { s with seq := q, responses := r }

section
variable {s s' t : State} {u v : Uop} {us vs : List Uop}

theorem SameAtPins.finish (h : SameAtPins s t) (a : Progress → Answer) : SameAtPins s (t.finish a) := by
  obtain ⟨q, r, rfl⟩ := h
  cases q <;> exact ⟨_, _, rfl⟩

/-- A precondition asks neither for `SEQ` nor for the place a level goes to (R90). -/
theorem SameAtPins.violation (h : SameAtPins s t) (action : u.pinAction = v.pinAction) :
    u.violation s = v.violation t := by
  obtain ⟨q, r, rfl⟩ := h
  cases u <;> cases v <;> cases action <;> rfl

/-- Nor does an effect, `SEQ` aside (R91 to R95). -/
theorem SameAtPins.effect (h : SameAtPins s t) (action : u.pinAction = v.pinAction) :
    SameAtPins (u.effect s) (v.effect t) := by
  obtain ⟨q, r, rfl⟩ := h
  cases u <;> cases v <;> cases action
  case out.out.refl l | inp.inp.refl l | wr.wr.refl l _ => cases l <;> exact ⟨_, _, rfl⟩
  case rd.rd.refl =>
    obtain ⟨_, _, _, m, _, _, _, _, _⟩ := s
    cases m <;> cases q <;> exact ⟨_, _, rfl⟩
  case rel.rel.refl l =>
    refine ⟨q, r, ?_⟩
    by_cases released : s.dir l = .released
    · exact (if_pos released).trans (by rw [Uop.effect, if_pos released])
    · refine (if_neg released).trans ?_
      rw [Uop.effect, if_neg released]
      cases l <;> rfl

theorem SameAtPins.mapProgress (h : SameAtPins s t) (f g : Progress → Progress) :
    SameAtPins (s.mapProgress f) (t.mapProgress g) := by
  obtain ⟨q, r, rfl⟩ := h
  obtain ⟨_, hf⟩ := mapProgress_eq s f
  obtain ⟨_, hg⟩ := mapProgress_eq { s with seq := q, responses := r } g
  rw [hf, hg]
  exact ⟨_, _, rfl⟩

/-- Runs of μops with the same actions do the same at the pins. -/
theorem SameAtPins.run (h : SameAtPins s t) (actions : us.map Uop.pinAction = vs.map Uop.pinAction)
    (ran : runUops us s = .done s') : ∃ t', runUops vs t = .done t' ∧ SameAtPins s' t' := by
  induction us generalizing s t vs with
  | nil =>
    obtain rfl : vs = [] := by simpa using actions.symm
    obtain rfl : s = s' := Run.done.inj ran
    exact ⟨t, rfl, h⟩
  | cons u us ih =>
    obtain ⟨v, vs, rfl, action, actions⟩ := List.map_eq_cons_iff.1 actions.symm
    cases hu : s.performUop u with
    | error c => simp [runUops, hu] at ran
    | ok w =>
      obtain ⟨allowed, rfl⟩ := performUop_ok_iff.1 hu
      have performed := performUop_ok_iff.2 ⟨(h.violation action.symm).symm.trans allowed, rfl⟩
      rw [runUops, hu] at ran
      rw [runUops, performed]
      exact ih ((h.effect action.symm).mapProgress _ _) actions.symm ran

end

/-! ### Commands one after the other -/

/-- The μops of commands performed one after the other. -/
def uopsOf (is : List Instr) : List Uop := is.flatMap fun i => (commandOf i).uops

section
variable {s s' t : State} {i : Instr} {is : List Instr} {us : List Uop}

/-- A run to its end is a run of its first part to its end, and of the rest. -/
theorem runUops_append_done {us vs : List Uop} (ran : runUops (us ++ vs) s = .done s') :
    ∃ m, runUops us s = .done m ∧ runUops vs m = .done s' := by
  rw [runUops_append] at ran
  cases hr : runUops us s with
  | done m => exact ⟨m, rfl, by rwa [hr] at ran⟩
  | violated c l m => simp [hr] at ran

/-- A command whose μops can be run leaves the pins as they do, and is ready for the next (R27). -/
theorem exec_of_run_same (ready : t.Ready) (same : SameAtPins s t)
    (actions : us.map Uop.pinAction = (commandOf i).uops.map Uop.pinAction) (ran : runUops us s = .done s') :
    ∃ t', exec i t = .next t' ∧ t'.Ready ∧ SameAtPins s' t' := by
  have begun : SameAtPins s (t.begin (commandOf i).word) := by
    obtain ⟨q, r, rfl⟩ := same
    exact ⟨_, _, rfl⟩
  obtain ⟨t', ran', same'⟩ := begun.run actions ran
  have frame := runUops_extends (commandOf i).uops (t.begin (commandOf i).word)
  obtain ⟨q, busy⟩ := runUops_busy (commandOf i).uops (begin_seq t (commandOf i).word)
  have performed := exec_performed (i := i) ready.1 (.inl ready.2)
  rw [ran'] at frame busy performed
  have noFault : t'.fsr.fault = false := (congrArg Fsr.fault frame.fsr).trans ready.2
  refine ⟨_, performed, ?_, same'.finish _⟩
  rw [Run.conclude, finish_busy (s := t') busy]
  exact ⟨rfl, noFault⟩

/-- Commands performed one after the other do at the pins what the run of all their μops does (R130). -/
theorem execAll_of_run_same (ready : t.Ready) (same : SameAtPins s t)
    (actions : us.map Uop.pinAction = (uopsOf is).map Uop.pinAction) (ran : runUops us s = .done s') :
    ∃ t', execAll is t = .next t' ∧ t'.Ready ∧ SameAtPins s' t' := by
  induction is generalizing s t us with
  | nil =>
    obtain ⟨t', ran', same'⟩ := same.run actions ran
    obtain rfl : t = t' := Run.done.inj ran'
    exact ⟨t, rfl, ready, same'⟩
  | cons i is ih =>
    obtain ⟨vs, ws, rfl, first, rest⟩ := List.map_eq_append_iff.1
      (actions.trans (List.map_append (l₁ := (commandOf i).uops) (l₂ := uopsOf is)))
    obtain ⟨m, ranFirst, ranRest⟩ := runUops_append_done ran
    obtain ⟨t', performed, ready', same'⟩ := exec_of_run_same ready same first ranFirst
    rw [execAll, performed]
    exact ih ready' same' rest ranRest

end

/-- The commands the steps of a RDREG name, in their order (R130). -/
def rdregSteps (dev reg : Byte) : List Instr :=
  [.stop, .start, .sendb (writeAddress dev), .sendb reg, .start, .sendb (readAddress dev), .recvb, .stop]

/-- Where a SENDB puts its AckBit is no matter of the pins (R121). -/
theorem sendbUops_pinAction (b : Byte) (k : Sink) :
    (sendbUops b k).map Uop.pinAction = (commandOf (.sendb b)).uops.map Uop.pinAction := rfl

/-- A RDREG does at the pins what its steps do (R130, R131). -/
theorem rdregUops_pinAction (dev reg : Byte) :
    (rdregUops dev reg).map Uop.pinAction = (uopsOf (rdregSteps dev reg)).map Uop.pinAction := by
  simp only [rdregUops, rdregSteps, uopsOf, List.flatMap_cons, List.flatMap_nil, List.map_append, List.append_assoc,
    sendbUops_pinAction, List.append_nil]
  rfl

/-- Settles O25: the RDREG and its steps run the same actions at the pins, from states that differ in `SEQ` at most. -/
theorem rdregIsTheCompositionOfItsSteps : Obligations.RdregIsTheCompositionOfItsSteps := by
  intro dev reg s ready out
  obtain ⟨a1, a2, a3, b, -, ran⟩ := run_rdreg dev reg [] s.scl.latch s.sda.latch s.fsr
    (p := ⟨(commandOf (.rdreg dev reg)).word, 0, 0, 0, false⟩) s.host s.env s.reads s.trace s.responses rfl
  rw [← begin_of_bothOut out, List.append_nil] at ran
  have same : SameAtPins (s.begin (commandOf (.rdreg dev reg)).word) s := ⟨s.seq, s.responses, rfl⟩
  obtain ⟨t, performed, readyT, sameT⟩ := exec_of_run_same ready same (i := .rdreg dev reg) rfl ran
  obtain ⟨r, steps, readyR, sameR⟩ := execAll_of_run_same ready same (rdregUops_pinAction dev reg) ran
  refine ⟨t, r, performed, steps, ?_⟩
  obtain ⟨q, _, rfl⟩ := sameT
  obtain ⟨q', _, rfl⟩ := sameR
  obtain rfl : q' = q := readyR.1.trans readyT.1.symm
  rfl

end Sys2Proof.Machine
end

section
/-! PROOF. No state stops the machine, and no sampled level steers it (spec/43_register_transaction.md R133;
spec/60_exceptions.md R168). -/

namespace Sys2Proof.Machine

/-- Settles O37: a reset, the sequencer's step, or the host's next move; a word is answered, so it is not refused. -/
theorem everyStepGoesOn : Obligations.EveryStepGoesOn := by
  intro s
  cases busy : s.seq with
  | busy p =>
    by_cases hr : s.NoReset
    · exact ⟨_, step_busy busy hr⟩
    · obtain ⟨rest, hh⟩ : ∃ rest, s.host = .reset :: rest := by simpa [State.NoReset] using hr
      exact ⟨_, step_reset hh⟩
  | idle =>
    match hh : s.host with
    | [] => exact ⟨_, step_idle_nil busy hh⟩
    | .issue w :: rest =>
      obtain ⟨t, ht, -⟩ := acceptWord_answeredOnce (s := { s with host := rest }) busy w
      exact ⟨t, (step_idle_issue busy hh).trans ht⟩
    | .issueStepped w :: rest => exact ⟨_, step_idle_issueStepped busy hh⟩
    | .wait :: rest => exact ⟨_, step_idle_wait busy hh⟩
    | .reset :: rest => exact ⟨_, step_reset hh⟩

/-! ### Other answers from the environment -/

/-- Two states that differ in what was sampled at most: same line cells, same fault status, same events but for the levels
read (R133). -/
structure SameButSampled (s t : State) : Prop where
  cell : ∀ l, s.cell l = t.cell l
  fsr : s.fsr = t.fsr
  trace : s.trace.map Event.blind = t.trace.map Event.blind

/-- A precondition is a matter of the directions alone (R90). -/
theorem violation_congr {s t : State} (h : ∀ l, s.dir l = t.dir l) (u : Uop) : u.violation s = u.violation t := by
  cases u <;> simp [Uop.violation, h]

/-- But for the level an `RD` returns, a μop's events are a function of the μop. -/
theorem bracketed_pinEvent_blind (u : Uop) (v w : Level) :
    (Event.bracketed (u.pinEvent v)).map Event.blind = (Event.bracketed (u.pinEvent w)).map Event.blind := by
  cases u <;> rfl

section
variable {s t : State} {p q : Progress}

theorem SameButSampled.dir (h : SameButSampled s t) (l : Line) : s.dir l = t.dir l := congrArg LineCell.dir (h.cell l)

/-- A change of `SEQ` and of the responses alone is no difference. -/
theorem SameButSampled.finish (h : SameButSampled s t) (hs : s.seq = .busy p) (ht : t.seq = .busy q)
    (a : Progress → Answer) : SameButSampled (s.finish a) (t.finish a) := by
  rw [finish_busy hs, finish_busy ht]
  exact ⟨h.cell, h.fsr, h.trace⟩

theorem SameButSampled.raiseFault (h : SameButSampled s t) (c : FaultCode) (l : Line) :
    SameButSampled (s.raiseFault c l) (t.raiseFault c l) := ⟨h.cell, rfl, h.trace⟩

/-- A μop is performed in both states or in neither, and does the same but for what it samples (R133). -/
theorem SameButSampled.performUop {u : Uop} (h : SameButSampled s t) (hs : s.seq = .busy p) (ht : t.seq = .busy q)
    (allowed : u.violation s = none) : ∃ s' t' p' q', s.performUop u = .ok s' ∧ t.performUop u = .ok t' ∧
      s'.seq = .busy p' ∧ t'.seq = .busy q' ∧ SameButSampled s' t' := by
  obtain ⟨v, s', -, performed, busy, trace, cell, fsr, -⟩ := performUop_spec hs allowed
  obtain ⟨w, t', -, performed', busy', trace', cell', fsr', -⟩ :=
    performUop_spec ht ((violation_congr h.dir u).symm.trans allowed)
  refine ⟨s', t', _, _, performed, performed', busy, busy', fun l => ?_, ?_, ?_⟩
  · rw [cell, cell', h.cell]
  · rw [fsr, fsr', h.fsr]
  · rw [trace, trace', isVoid_congr h.dir, List.map_append, List.map_append, h.trace, apply_ite (List.map _),
      apply_ite (List.map _), bracketed_pinEvent_blind u v w]

/-- No sampled level selects, skips or repeats a μop of a run, or decides how it ends (R133). -/
theorem SameButSampled.conclude (a : Progress → Answer) (us : List Uop) (h : SameButSampled s t) (hs : s.seq = .busy p)
    (ht : t.seq = .busy q) : SameButSampled ((runUops us s).conclude a) ((runUops us t).conclude a) := by
  induction us generalizing s t p q with
  | nil => exact h.finish hs ht a
  | cons u us ih =>
    cases hv : u.violation s with
    | some c =>
      have hv' := (violation_congr h.dir u).symm.trans hv
      rw [runUops, runUops, performUop_error_iff.2 hv, performUop_error_iff.2 hv']
      exact h.raiseFault c u.line
    | none =>
      obtain ⟨s', t', p', q', performed, performed', busy, busy', same⟩ := h.performUop hs ht hv
      rw [runUops, runUops, performed, performed']
      exact ih same busy busy'

theorem SameButSampled.exec (h : SameButSampled s t) (hs : s.seq = .idle) (ht : t.seq = .idle) (i : Instr) :
    ∃ s' t', exec i s = .next s' ∧ exec i t = .next t' ∧ SameButSampled s' t' := by
  rcases performed_or_pending s.fsr i with hi | ⟨hf, hi⟩
  · have begun : SameButSampled (s.begin (commandOf i).word) (t.begin (commandOf i).word) := ⟨h.cell, h.fsr, h.trace⟩
    exact ⟨_, _, exec_performed hs hi, exec_performed ht (h.fsr ▸ hi), begun.conclude _ _ rfl rfl⟩
  · exact ⟨_, _, exec_pending hs hf hi, exec_pending ht (h.fsr ▸ hf) hi, h.cell, h.fsr, h.trace⟩

end

/-- Settles O42: the two states differ in the answers to come alone, and each is answered once. -/
theorem sampledLevelsSteerNothing : Obligations.SampledLevelsSteerNothing := by
  intro i s e n idle
  have start : SameButSampled s { s with env := e, reads := n } := ⟨fun l => by cases l <;> rfl, rfl, rfl⟩
  obtain ⟨t, u, ht, hu, same⟩ := start.exec idle idle i
  obtain ⟨t', ht', tIdle, tHost, r, tResponses⟩ := exec_answeredOnce idle i
  obtain ⟨u', hu', uIdle, uHost, r', uResponses⟩ := exec_answeredOnce (s := { s with env := e, reads := n }) idle i
  obtain rfl := exec_unique ht' ht
  obtain rfl := exec_unique hu' hu
  refine ⟨t', u', ht, hu, same.trace, same.cell .scl, same.cell .sda, same.fsr, tIdle.trans uIdle.symm,
    tHost.trans uHost.symm, ?_⟩
  rw [tResponses, uResponses, List.length_append, List.length_append]
  rfl

end Sys2Proof.Machine
end

section
/-! LAWS and PROOF. The register read on the wire (spec/43_register_transaction.md R134). -/

namespace Sys2Proof.Machine

/-- The record of a condition's pulse on a driven data line: the level driven when the clock rises (R102, R103). -/
theorem risingSamples_start {p : Pads} (driven : p.sda.oe = true) :
    risingSamples p (withSleeps startPins) = [some true] := by
  calc risingSamples p (withSleeps startPins)
    _ = [if p.sda.oe then some true else none] := rfl
    _ = [some true] := by rw [if_pos driven]

theorem risingSamples_stop {p : Pads} (driven : p.sda.oe = true) :
    risingSamples p (withSleeps stopPins) = [some false] := by
  calc risingSamples p (withSleeps stopPins)
    _ = [if p.sda.oe then some false else none] := rfl
    _ = [some false] := by rw [if_pos driven]

/-- The record of a RDREG (R134): its steps leave the data line driven, so the record of each is known. -/
theorem risingSamples_rdreg {p : Pads} (driven : p.sda.oe = true) (dev reg : Byte) (a1 a2 a3 : Level) (b : Byte) :
    risingSamples p (withSleeps (rdregPins dev reg a1 a2 a3 b)) =
      [some false, some true] ++ (msbFirst (writeAddress dev)).map some ++ [none] ++
      (msbFirst reg).map some ++ [none] ++ [some true] ++ (msbFirst (readAddress dev)).map some ++ [none] ++
      List.replicate 8 none ++ [some false] ++ [some false] := by
  have afterStop : ((withSleeps stopPins).foldl Pads.after p).sda.oe = true := driven
  have afterStart : ((withSleeps startPins).foldl Pads.after ((withSleeps stopPins).foldl Pads.after p)).sda.oe = true :=
    driven
  simp only [rdregPins, List.append_assoc, withSleeps_append, risingSamples_append]
  rw [risingSamples_stop driven, risingSamples_start afterStop, risingSamples_sendb afterStart, risingSamples_sendb rfl,
    risingSamples_start rfl, risingSamples_sendb rfl, risingSamples_recvb, risingSamples_stop rfl]
  rfl

/-- Settles O49: the conditions of the segment a RDREG adds, and its record. -/
theorem wireDuringRdreg : Obligations.WireDuringRdreg := by
  intro dev reg s outside ready low high
  have out : s.sda.dir = .out := by rw [high]
  have driven : s.pads.sda.oe = true := beq_iff_eq.2 out
  obtain ⟨a1, a2, a3, b, -, performed⟩ := exec_rdreg ready (bothOut_of_low low out) dev reg
  refine ⟨_, _, performed, rfl, ?_, risingSamples_rdreg driven dev reg a1 a2 a3 b⟩
  rw [pads_of_sdaOut low out]
  exact (seg_rdreg ..).conditions

/-- Settles O54: the segment a RDREG adds is all that is seen, its acknowledges and data those of the answer. -/
theorem rdregInTheUsualShorthand : Obligations.RdregInTheUsualShorthand := by
  intro dev reg s t outside es ready low high ht added rules
  obtain ⟨u, a1, a2, a3, data, hu, response, adds⟩ := rdreg_adds ready low (by rw [high]) dev reg
  obtain rfl := exec_unique hu ht
  exact ⟨a1, a2, a3, data, response, adds.observed_eq low added rules⟩

end Sys2Proof.Machine
end

section
/-! LAWS and PROOF. The word decoder and the accumulator (spec/44_word_decoder.md R140 to R142). -/

namespace Sys2Proof.Machine

/-! ### The word and its signed reading -/

section
variable (low high : Byte)

/-- The decoder is the wiring `{high, low}`: its word is the operand field of the command word, high byte above low byte
(R71, R140). -/
theorem composeWord_eq_append : composeWord low high = high ++ low := by
  calc composeWord low high
    _ = (Instr.dec16 low high).operandField := BitVec.or_comm _ _
    _ = (Instr.dec16 low high).operandField.extractLsb' 8 8 ++ (Instr.dec16 low high).operandField.extractLsb' 0 8 :=
      (BitVec.extractLsb'_append_extractLsb' (w := 8) (len := 8)).symm
    _ = high ++ low := by rw [operandField_dec16_high, operandField_dec16_low]

/-- The subtraction of `2^16` when the top bit is set is the two's-complement reading (R140). -/
theorem signedValue_eq_toInt (word : BitVec 16) : signedValue word = word.toInt :=
  (BitVec.toInt_eq_msb_cond word).symm

theorem toInt_append_eq_decodeSigned16 : (high ++ low).toInt = decodeSigned16 low high := by
  rw [decodeSigned16, signedValue_eq_toInt, composeWord_eq_append]

/-- The high byte is signed, the low byte is not (R142 (e)). -/
theorem decodeSigned16_eq_toInt_mul_add : decodeSigned16 low high = high.toInt * 256 + low.toNat := by
  rw [← toInt_append_eq_decodeSigned16, BitVec.toInt_append, Int.mul_comm]
  rfl

end

/-- Settles O26: a command of no μop is answered from the state it is taken in, faulted or not. -/
theorem dec16AnswersTheWord : Obligations.Dec16AnswersTheWord := by
  intro low high s idle
  refine ⟨?_, toInt_append_eq_decodeSigned16 low high⟩
  rw [exec_performed idle (.inr rfl)]
  change Host.Outcome.next ((s.begin (dec16Command low high).word).finish (dec16Command low high).answer) = _
  rw [finish_busy rfl, ← idle, ← composeWord_eq_append]
  rfl

/-- A value determines its pair: the low byte is its remainder by 256, the high byte its signed quotient (R142 (d)). -/
theorem decodeSigned16_injective {l h l' h' : Byte} (same : decodeSigned16 l h = decodeSigned16 l' h') :
    l = l' ∧ h = h' := by
  rw [decodeSigned16_eq_toInt_mul_add, decodeSigned16_eq_toInt_mul_add] at same
  have lowByte := l.isLt
  have lowByte' := l'.isLt
  exact ⟨BitVec.eq_of_toNat_eq (by omega), BitVec.eq_of_toInt_eq (by omega)⟩

/-- Every integer of 16 signed bits is the value of its two bytes (R142 (d)). -/
theorem decodeSigned16_surjective {z : Int} (lower : -32768 ≤ z) (upper : z ≤ 32767) :
    decodeSigned16 ((BitVec.ofInt 16 z).extractLsb' 0 8) ((BitVec.ofInt 16 z).extractLsb' 8 8) = z := by
  rw [← toInt_append_eq_decodeSigned16, BitVec.extractLsb'_append_extractLsb' (w := 8)]
  exact BitVec.toInt_ofInt_eq_self (by decide) lower (Int.lt_add_one_iff.2 upper)

/-- Settles O27: the laws are the arithmetic of a signed high and an unsigned low byte. -/
theorem dec16Laws : Obligations.Dec16Laws := by
  refine ⟨fun low high => ?_, fun _ _ _ _ => decodeSigned16_injective,
    fun _ lower upper => ⟨_, _, decodeSigned16_surjective lower upper⟩⟩
  have lowByte := low.isLt
  have highByte := high.isLt
  have sign : high.toInt = if 2 * high.toNat < 2 ^ 8 then (high.toNat : Int) else high.toNat - 2 ^ 8 :=
    BitVec.toInt_eq_toNat_cond high
  rw [decodeSigned16_eq_toInt_mul_add]
  refine ⟨?_, ?_, ?_, ?_, rfl⟩ <;> omega

/-! ### The accumulator -/

/-- One shift doubles the accumulator and adds the sample, as long as its top bit is clear (R141). -/
theorem shiftIn_toNat {acc : Byte} (b : Level) (fits : acc.toNat < 128) :
    (shiftIn acc b).toNat = 2 * acc.toNat + b.toNat := by
  have sample : (levelBits 8 b).toNat = b.toNat := by cases b <;> rfl
  have shifted : (acc <<< 1).toNat = 2 ^ 1 * acc.toNat := by
    rw [BitVec.toNat_shiftLeft, Nat.shiftLeft_eq, Nat.mod_eq_of_lt (by omega), Nat.mul_comm]
  rw [shiftIn, BitVec.toNat_or, shifted, sample, ← Nat.two_pow_add_eq_or_of_lt b.toNat_lt]

/-- Settles O28: by induction on the samples, the last one shifted in last. -/
theorem accumulatorSpellsTheSamples : Obligations.AccumulatorSpellsTheSamples := by
  intro bits
  induction bits using List.reverseRecOn with
  | nil => exact fun _ => ⟨rfl, by decide⟩
  | append_singleton bits b ih =>
    intro atMost
    rw [List.length_append, List.length_singleton] at atMost ⊢
    obtain ⟨spelled, bounded⟩ := ih (by omega)
    have fits : (bits.foldl shiftIn 0).toNat < 128 :=
      bounded.trans_le (Nat.pow_le_pow_right (j := 7) (by decide) (by omega))
    have bit : b.toNat < 2 := b.toNat_lt
    simp only [List.foldl_append, List.foldl_cons, List.foldl_nil, shiftIn_toNat b fits]
    exact ⟨by rw [spelled], by omega⟩

end Sys2Proof.Machine
end

section
/-! LAWS and PROOF. A release in every state of its line, and the first μop of a command that uses a line
(spec/40_digital_line.md R95; spec/45_lifecycle.md R150, R151); the statements of the family 45_lifecycle. -/

namespace Sys2Proof.Machine

section
variable {s : State}

/-- `REL(L)` in every state (R95): the line is released and its latch kept; the event is emitted only for a line held. -/
theorem performUop_rel {p : Progress} (busy : s.seq = .busy p) (l : Line) : s.performUop (.rel l) = .ok
    { s.setCell l ⟨.released, s.latch l⟩ with
      seq := .busy { p with upc := p.upc + 1 }
      trace := s.trace ++ (if s.dir l = .released then [] else [.rel l]) } := by
  refine performUop_ok_iff.2 ⟨rfl, ?_⟩
  by_cases released : s.dir l = .released
  · have same : (⟨.released, s.latch l⟩ : LineCell) = s.cell l := by rw [← released]; rfl
    simp [Uop.effect, released, same, setCell_self, advance_busy busy]
  · have after : ((s.emit (.rel l)).setDir l .released).seq = .busy p := by simp [State.setDir, busy]
    rw [Uop.effect, if_neg released, if_neg released, advance_busy after]
    cases l <;> rfl

theorem run_rel {p : Progress} (busy : s.seq = .busy p) (l : Line) (us : List Uop) : runUops (.rel l :: us) s =
    runUops us { s.setCell l ⟨.released, s.latch l⟩ with
      seq := .busy { p with upc := p.upc + 1 }
      trace := s.trace ++ (if s.dir l = .released then [] else [.rel l]) } := by
  rw [runUops, performUop_rel busy]

/-- A command the faulted state does not perform uses a line: it begins with a μop that is no release (R151). -/
theorem first_uop_uses_line {i : Instr} (uses : performedInFault i = false) :
    ∃ u us, (commandOf i).uops = u :: us ∧ (∀ l, u ≠ .rel l) ∧ u.line = firstUopLine i := by
  cases i with
  | lnrel _ | dec16 _ _ | cleanup => exact absurd uses (by simp [performedInFault])
  | lnout _ | lnin _ | lnwr _ _ | lnrd _ | start | stop | wbit _ | rbit | sack | cack | sendb _ | recvb | rdreg _ _ =>
    exact ⟨_, _, rfl, by simp, rfl⟩

end

/-- Settles O29: the run of the two releases, which is the same law for each line; neither can fault. -/
theorem cleanupReleasesBothPins : Obligations.CleanupReleasesBothPins := by
  intro s idle
  have uops : (commandOf .cleanup).uops = [.rel .scl, .rel .sda] := rfl
  rw [exec_performed idle (.inr rfl), uops, run_rel rfl, run_rel rfl, runUops, Run.conclude, finish_busy rfl,
    ← List.append_assoc, idle]
  rfl

/-- Settles O30: the first μop finds its line released, whichever it is. -/
theorem useAfterCleanupFaults : Obligations.UseAfterCleanupFaults := by
  intro i s ready sclReleased sdaReleased uses
  obtain ⟨u, us, first, notRelease, line⟩ := first_uop_uses_line uses
  have released : s.dir u.line = .released := by
    cases u.line with
    | scl => exact sclReleased
    | sda => exact sdaReleased
  rw [← line]
  exact exec_of_violation ready first (violation_of_released notRelease released)

end Sys2Proof.Machine
end

section
/-! LAWS and PROOF. Every step but a reset adds pin events with their sleeps to the trace, and the pads follow them; a reset
sets the pads directly (spec/60_exceptions.md R173; spec/70_reset_and_hazards.md R191); from these, the pads of every run. -/

namespace Sys2Proof.Machine

/-- From `s` to `t` the trace has gained pin events with the sleeps around them, and the pads have followed (R173, R203). -/
def PadsFollow (s t : State) : Prop :=
  ∃ pins, t.trace = s.trace ++ withSleeps pins ∧ t.pads = (withSleeps pins).foldl Pads.after s.pads

section
variable {s t u : State}

theorem Extends.padsFollow (e : Extends s t) : PadsFollow s t := e.trace

/-- What leaves the trace and the lines alone needs no event. -/
theorem PadsFollow.of_same_trace (trace : t.trace = s.trace) (pads : t.pads = s.pads) : PadsFollow s t :=
  ⟨[], by rw [trace]; exact (List.append_nil _).symm, pads⟩

theorem PadsFollow.trans (first : PadsFollow s t) (second : PadsFollow t u) : PadsFollow s u := by
  obtain ⟨p, traceT, padsT⟩ := first
  obtain ⟨q, traceU, padsU⟩ := second
  refine ⟨p ++ q, ?_, ?_⟩
  · rw [traceU, traceT, withSleeps_append, List.append_assoc]
  · rw [padsU, padsT, withSleeps_append, List.foldl_append]

/-! ### The pads through a command -/

theorem raiseFault_padsFollow (s : State) (c : FaultCode) (l : Line) : PadsFollow s (s.raiseFault c l) :=
  .of_same_trace rfl rfl

theorem respondPending_padsFollow (s : State) : PadsFollow s s.respondPending := .of_same_trace rfl rfl

theorem rejectWord_padsFollow (s : State) : PadsFollow s s.rejectWord := by
  unfold State.rejectWord
  split
  · exact respondPending_padsFollow s
  · exact raiseFault_padsFollow s _ _

theorem finish_padsFollow (s : State) (a : Progress → Answer) : PadsFollow s (s.finish a) := by
  cases hs : s.seq with
  | idle => rw [State.finish, hs]; exact .of_same_trace rfl rfl
  | busy p => rw [finish_busy hs]; exact .of_same_trace rfl rfl

/-- A whole command: its μops as far as they go, then its response or its fault (R163). -/
theorem conclude_padsFollow (s : State) (us : List Uop) (a : Progress → Answer) :
    PadsFollow s ((runUops us s).conclude a) := by
  have ran := (runUops_extends us s).padsFollow
  cases hr : runUops us s with
  | done t => rw [hr] at ran; exact ran.trans (finish_padsFollow t a)
  | violated c l t => rw [hr] at ran; exact ran.trans (raiseFault_padsFollow t c l)

/-- Settling passes void μops, which no pin sees (R95; log 5). -/
theorem settle_padsFollow (a : Progress → Answer) (us : List Uop) (s : State) : PadsFollow s (settle a us s) := by
  induction us generalizing s with
  | nil => exact finish_padsFollow s a
  | cons u us ih =>
    rw [settle]
    split
    · exact (mapProgress_extends s _).padsFollow.trans (ih s.advance)
    · exact .of_same_trace rfl rfl

theorem exec_padsFollow {i : Instr} (idle : s.seq = .idle) (ht : exec i s = .next t) : PadsFollow s t := by
  rcases performed_or_pending s.fsr i with goes | ⟨hf, hi⟩
  · rw [exec_performed idle goes] at ht
    cases ht
    exact (extends_seq s _).padsFollow.trans (conclude_padsFollow _ _ _)
  · rw [exec_pending idle hf hi] at ht
    cases ht
    exact respondPending_padsFollow s

theorem acceptWord_padsFollow {w : CommandWord} (idle : s.seq = .idle) (ht : acceptWord w s = .next t) :
    PadsFollow s t := by
  cases hd : decode w with
  | error e => rw [acceptWord_of_illegal hd] at ht; cases ht; exact rejectWord_padsFollow s
  | ok i => rw [acceptWord_of_decode hd] at ht; exact exec_padsFollow idle ht

theorem beginWord_padsFollow (s : State) (w : CommandWord) : PadsFollow s (beginWord w s) := by
  cases hd : decode w with
  | error e => rw [beginWord_of_illegal hd]; exact rejectWord_padsFollow s
  | ok i =>
    rw [beginWord_of_decode hd]
    rcases performed_or_pending s.fsr i with goes | ⟨hf, hi⟩
    · rw [accept_performed goes]
      exact (extends_seq s _).padsFollow.trans (settle_padsFollow _ _ _)
    · rw [accept_pending hf hi]
      exact respondPending_padsFollow s

/-- One step of the sequencer, in the two busy states no run reaches too (log 14). -/
theorem stepBusy_padsFollow (s : State) (p : Progress) : PadsFollow s (s.stepBusy p) := by
  cases hd : decode p.cmd with
  | error e => rw [stepBusy_of_illegal hd]; exact raiseFault_padsFollow s _ _
  | ok i =>
    cases hu : (commandOf i).uops.drop p.upc.toNat with
    | nil => rw [stepBusy_at_end hd hu]; exact finish_padsFollow s _
    | cons u us =>
      cases ht : s.performUop u with
      | error c => rw [stepBusy_violated hd hu (performUop_error_iff.1 ht)]; exact raiseFault_padsFollow s _ _
      | ok t =>
        rw [stepBusy_performed hd hu ht]
        exact (performUop_extends ht).padsFollow.trans (settle_padsFollow _ _ t)

/-! ### The pads through a step -/

theorem step_padsFollow (noReset : s.NoReset) (ht : step s = .next t) : PadsFollow s t := by
  cases hs : s.seq with
  | busy p =>
    rw [step_busy hs noReset] at ht
    cases ht
    exact stepBusy_padsFollow { s with host := s.hostInProgress } p
  | idle =>
    match hh : s.host with
    | [] => rw [step_idle_nil hs hh] at ht; cases ht; exact .of_same_trace rfl rfl
    | .issue w :: rest =>
      rw [step_idle_issue hs hh] at ht
      exact acceptWord_padsFollow (s := { s with host := rest }) hs ht
    | .issueStepped w :: rest =>
      rw [step_idle_issueStepped hs hh] at ht
      cases ht
      exact beginWord_padsFollow { s with host := rest } w
    | .wait :: rest => rw [step_idle_wait hs hh] at ht; cases ht; exact .of_same_trace rfl rfl
    | .reset :: rest => exact absurd hh (noReset rest)

/-- The moments of a step make the pads after it of those before it: events move them (R173), or a reset does (R191). -/
theorem stepMoments_pads (flicker : List WireState) (ht : step s = .next t) :
    (stepMoments flicker s t).foldl Pads.afterMoment s.pads = t.pads := by
  by_cases noReset : s.NoReset
  · obtain ⟨pins, trace, pads⟩ := step_padsFollow noReset ht
    have noResetHead : s.host.head? ≠ some .reset := fun head => by
      obtain ⟨rest, hh⟩ := List.head?_eq_some_iff.1 head
      exact noReset rest hh
    rw [stepMoments, if_neg noResetHead, trace, List.drop_left, List.foldl_map, pads]
    rfl
  · obtain ⟨rest, hh⟩ : ∃ rest, s.host = .reset :: rest := by simpa [State.NoReset] using noReset
    rw [step_reset hh] at ht
    cases ht
    rw [stepMoments, hh]
    rfl

/-- The wire of one line is that of its pads (R23, R173). -/
theorem wire_eq_pads_wire (s : State) (l : Line) (v : Level) : s.wire l v = (s.pads.get l).wire v := by
  have wires := wires_eq_pads_wires s fun _ => v
  cases l with
  | scl => exact congrArg WireState.scl wires
  | sda => exact congrArg WireState.sda wires

end

/-- Settles O45: the events of the step are those its trace gains, and a line is driven exactly while it is an output. -/
theorem padsFollowTheTrace : Obligations.PadsFollowTheTrace := by
  refine ⟨fun s t noReset ht => ?_, fun s l v => ⟨wire_eq_pads_wire s l v, ?_⟩⟩
  · obtain ⟨pins, follow⟩ := step_padsFollow noReset ht
    exact ⟨withSleeps pins, follow⟩
  · rw [State.wire]
    cases s.dir l <;> rfl

/-- Settles O56, by induction on the number of steps: the first step's moments make the pads the others start from. -/
theorem padsFollowEveryRun : Obligations.PadsFollowEveryRun := by
  intro k s t flicker run
  induction k generalizing s with
  | zero => cases run; rfl
  | succ k ih =>
    obtain ⟨u, hu⟩ := everyStepGoesOn s
    rw [core_run_succ hu] at run
    simp only [runMoments, hu]
    rw [List.foldl_append, stepMoments_pads _ hu]
    exact ih u run

end Sys2Proof.Machine
end

section
/-! LAWS and PROOF. The faulted state (spec/60_exceptions.md R165). -/

namespace Sys2Proof.Machine

/-- The three commands the faulted state performs neither look at `FSR` nor change it (R95, R140, R150, R165). -/
theorem exec_performedInFault_fsr {i : Instr} {s : State} (idle : s.seq = .idle) (performed : performedInFault i = true)
    (f : Fsr) : ∃ t, exec i { s with fsr := f } = .next t ∧ exec i s = .next { t with fsr := s.fsr } := by
  cases i with
  | lnrel l =>
    refine ⟨_, exec_lnrel (s := { s with fsr := f }) idle l, (exec_lnrel idle l).trans ?_⟩
    cases l <;> rfl
  | dec16 low high =>
    exact ⟨_, (dec16AnswersTheWord low high { s with fsr := f } idle).1, (dec16AnswersTheWord low high s idle).1⟩
  | cleanup => exact ⟨_, cleanupReleasesBothPins { s with fsr := f } idle, cleanupReleasesBothPins s idle⟩
  | lnout _ | lnin _ | lnwr _ _ | lnrd _ | start | stop | wbit _ | rbit | sack | cack | sendb _ | recvb | rdreg _ _ =>
    cases performed

/-- Settles O32: a word is a command that is performed, one that is not, or illegal; the last two get the pending code. -/
theorem faultedStateAnswersThePendingCode : Obligations.FaultedStateAnswersThePendingCode := by
  intro s w h idle fault offered
  rw [step_idle_issue idle offered]
  refine ⟨fun i hd performed => ?_, fun notPerformed => ?_⟩
  · rw [acceptWord_of_decode hd]
    exact exec_performedInFault_fsr (s := { s with host := h }) idle performed _
  · cases hd : decode w with
    | error e => rw [acceptWord_of_illegal hd, rejectWord_of_fault (s := { s with host := h }) fault]
    | ok i =>
      rw [acceptWord_of_decode hd]
      exact exec_pending (s := { s with host := h }) idle fault (notPerformed i hd)

end Sys2Proof.Machine
end

section
/-! LAWS and PROOF. Reset, and what nothing else undoes (spec/70_reset_and_hazards.md R190, R191; spec/60_exceptions.md
R166): a pad given up is not taken back by any event, and the faulted state performs only releases. -/

namespace Sys2Proof.Machine

section
variable {s t : State}

/-! ### Released lines -/

theorem get_modify (p : Pads) (k l : Line) (f : LinePads → LinePads) :
    (p.modify k f).get l = if k = l then f (p.get l) else p.get l := by
  cases k <;> cases l <;> rfl

/-- No GPIO call claims a pin that was given back (R173). -/
theorem own_after (e : Event) {p : Pads} {l : Line} (given : (p.get l).own = false) : ((p.after e).get l).own = false := by
  cases e with
  | sleep | rd _ _ => exact given
  | cfgOut k | cfgIn k | wr k _ | rel k => rw [Pads.after, get_modify]; split <;> simp [given]

theorem own_after_all (es : List Event) {p : Pads} {l : Line} (given : (p.get l).own = false) :
    ((es.foldl Pads.after p).get l).own = false := by
  induction es generalizing p with
  | nil => exact given
  | cons e es ih => exact ih (own_after e given)

/-- A line is released exactly when the block does not own its pad (R24, R173). -/
theorem dir_released_iff_own (s : State) (l : Line) : s.dir l = .released ↔ (s.pads.get l).own = false := by
  cases l <;> simp [State.dir, State.cell, State.pads, Pads.get, LineCell.pads]

/-- No event takes back a released line (R95, R166). -/
theorem PadsFollow.released (follow : PadsFollow s t) {l : Line} (released : s.dir l = .released) :
    t.dir l = .released := by
  obtain ⟨pins, -, pads⟩ := follow
  rw [dir_released_iff_own] at released ⊢
  rw [pads]
  exact own_after_all _ released

/-! ### The fault status -/

/-- The commands the faulted state performs consist of releases, which never fault (R95, R165). -/
theorem uop_performedInFault {i : Instr} {u : Uop} (performed : performedInFault i = true) (hu : u ∈ (commandOf i).uops) :
    ∃ l, u = .rel l := by
  cases i with
  | lnrel l => exact ⟨l, List.mem_singleton.1 hu⟩
  | dec16 _ _ => cases hu
  | cleanup =>
    rcases List.mem_pair.1 hu with rfl | rfl
    · exact ⟨.scl, rfl⟩
    · exact ⟨.sda, rfl⟩
  | lnout _ | lnin _ | lnwr _ _ | lnrd _ | start | stop | wbit _ | rbit | sack | cack | sendb _ | recvb | rdreg _ _ =>
    cases performed

/-- A busy block in the faulted state performs a release, which does not look at `FSR` (R95, R163). -/
theorem step_busy_fault_fsr {p : Progress} (inv : s.Inv) (noReset : s.NoReset) (busy : s.seq = .busy p)
    (fault : s.fsr.fault = true) (ht : step s = .next t) : t.fsr = s.fsr := by
  obtain ⟨i, u, t', hd, hu, hstep, -, -, performed⟩ := oneStepIsOneMicroOperation s p inv noReset busy
  obtain rfl : t' = t := Host.Outcome.next.inj (hstep.symm.trans ht)
  obtain ⟨j, hj, -, inFault⟩ : Seq.Good s.fsr (.busy p) := busy ▸ inv.goodSeq
  obtain rfl : i = j := Except.ok.inj (hd.symm.trans hj)
  obtain ⟨l, rfl⟩ := uop_performedInFault (inFault fault) (List.mem_of_getElem? hu)
  obtain ⟨-, -, -, -, fsr, -⟩ := performed rfl
  exact fsr

/-- A word issued in the faulted state is performed without a look at `FSR`, or answered with the pending code (R165). -/
theorem step_issue_fault_fsr {w : CommandWord} {h : List HostMove} (idle : s.seq = .idle) (fault : s.fsr.fault = true)
    (offered : s.host = .issue w :: h) (ht : step s = .next t) : t.fsr = s.fsr := by
  obtain ⟨performs, answers⟩ := faultedStateAnswersThePendingCode s w h idle fault offered
  by_cases performed : ∃ i, decode w = .ok i ∧ performedInFault i = true
  · obtain ⟨i, hd, hi⟩ := performed
    obtain ⟨t', -, hstep⟩ := performs i hd hi
    cases hstep.symm.trans ht
    rfl
  · cases (answers fun i hd => Bool.eq_false_iff.2 fun hi => performed ⟨i, hd, hi⟩).symm.trans ht
    rfl

/-- A word offered to the stepped reading in the faulted state is begun, which leaves `FSR` alone, or answered as a word
issued is (R27, R165). -/
theorem step_issueStepped_fault_fsr {w : CommandWord} {h : List HostMove} (idle : s.seq = .idle)
    (fault : s.fsr.fault = true) (offered : s.host = .issueStepped w :: h) (ht : step s = .next t) : t.fsr = s.fsr := by
  obtain ⟨begins, answers⟩ := acceptanceStopsBeforeTheFirstUop s w h idle offered
  by_cases performed : ∃ i, decode w = .ok i ∧ performedInFault i = true
  · obtain ⟨i, hd, hi⟩ := performed
    obtain ⟨t', hstep, frame, -⟩ := begins i hd (.inr hi)
    obtain rfl : t' = t := Host.Outcome.next.inj (hstep.symm.trans ht)
    exact (congrArg State.fsr frame).trans rfl
  · have same := answers fun i hd => ⟨fault, Bool.eq_false_iff.2 fun hi => performed ⟨i, hd, hi⟩⟩
    exact step_issue_fault_fsr (s := { s with host := .issue w :: h }) idle fault rfl (same.symm.trans ht)

/-- No step but a reset changes the fault status of the faulted state (R166). -/
theorem step_fault_fsr (inv : s.Inv) (noReset : s.NoReset) (fault : s.fsr.fault = true) (ht : step s = .next t) :
    t.fsr = s.fsr := by
  cases hs : s.seq with
  | busy p => exact step_busy_fault_fsr inv noReset hs fault ht
  | idle =>
    match hh : s.host with
    | [] => rw [step_idle_nil hs hh] at ht; cases ht; rfl
    | .issue w :: rest => exact step_issue_fault_fsr hs fault hh ht
    | .issueStepped w :: rest => exact step_issueStepped_fault_fsr hs fault hh ht
    | .wait :: rest => rw [step_idle_wait hs hh] at ht; cases ht; rfl
    | .reset :: rest => exact absurd hh (noReset rest)

end

/-- Settles O2: reset is taken in every state; any other step keeps a set `FSR`, and its events claim no pad back. -/
theorem resetAloneUnlatches : Obligations.ResetAloneUnlatches :=
  ⟨fun _ _ hh => step_reset hh, fun _ _ inv noReset ht =>
    ⟨fun fault => step_fault_fsr inv noReset fault ht, fun _ => (step_padsFollow noReset ht).released⟩⟩

/-! ### The wires at a reset -/

/-- What the wires may show at a reset for an observer to see the condition `c`: both low, then the clock high while the
data line changes (R108, U19). -/
def flickerOf (c : Condition) : List WireState :=
  match c with
  | .start => [⟨false, false⟩, ⟨true, true⟩, ⟨true, false⟩]
  | .stop => [⟨false, false⟩, ⟨true, false⟩, ⟨true, true⟩]

/-- What an observer sees of a reset: what the wires show at its instant, then clock low and data high (R191). -/
theorem observedOver_reset (outside : Nat → Line → Level) (p : Pads) (flicker : List WireState) :
    observedOver outside p [.reset flicker] = Observer.watch ⟨p.wires (outside 0), none⟩ (flicker ++ [⟨false, true⟩]) :=
  watch_last _ _

theorem watch_flickerOf (w : WireState) (c : Condition) :
    Observer.watch ⟨w, none⟩ (flickerOf c ++ [⟨false, true⟩]) = [.condition c] := by
  obtain ⟨scl, sda⟩ := w
  cases c <;> cases scl <;> cases sda <;> rfl

/-- Where the wires go straight to the reset state the clock ends low, so there is no condition (R108, R191). -/
theorem watch_straight_to_reset (w : WireState) : Observer.watch ⟨w, none⟩ [⟨false, true⟩] = [] := by
  rw [watch_unheld]
  simp [conditionBetween, Observer.watch]

/-- Settles O55: the reset state's pads and wires, and at the instant of the reset the flicker of a condition, or none. -/
theorem resetAtThePins : Obligations.ResetAtThePins := by
  intro s h hh
  have moments (flicker t) : stepMoments flicker s t = [.reset flicker] := by simp [stepMoments, hh]
  refine ⟨_, step_reset hh, rfl, rfl, rfl, fun _ => rfl, fun flicker => moments flicker _, fun outside => ⟨fun c => ?_, ?_⟩⟩
  · exact ⟨flickerOf c, by rw [moments, observedOver_reset, watch_flickerOf]⟩
  · exact ⟨[], by rw [moments, observedOver_reset]; exact watch_straight_to_reset _⟩

end Sys2Proof.Machine
end

section
/-! LAWS and PROOF. What a command adds to the trace, by its μops: the sleeps (spec/70_reset_and_hazards.md R203, R204), and
the order of data writes, re-acquires and clock rises (R202). -/

namespace Sys2Proof.Machine

section
variable {s t : State} {p : Progress}

/-- The events of a performed μop: its pin event with its sleeps, unless it is void (R90, R95). -/
theorem performUop_trace {u : Uop} (busy : s.seq = .busy p) (ht : s.performUop u = .ok t) :
    ∃ v q, t.seq = .busy q ∧ t.trace = s.trace ++ if u.isVoid s then [] else Event.bracketed (u.pinEvent v) := by
  obtain ⟨allowed, -⟩ := performUop_ok_iff.1 ht
  obtain ⟨v, t', -, performed, busy', trace, -⟩ := performUop_spec busy allowed
  obtain rfl : t' = t := Except.ok.inj (performed.symm.trans ht)
  exact ⟨v, _, busy', trace⟩

/-- Neither a response nor a fault emits an event (R27, R163). -/
theorem conclude_trace (a : Progress → Answer) (r : Run) : (r.conclude a).trace = r.state.trace := by
  cases r with
  | violated c l s => rfl
  | done s =>
    change (s.finish a).trace = s.trace
    cases hs : s.seq with
    | idle => rw [State.finish, hs]
    | busy p => rw [finish_busy hs]

/-! ### Sleeps -/

/-- What a step adds to the trace: what the pads follow, or at a reset nothing (R191, R203). -/
theorem step_trace (ht : step s = .next t) : ∃ pins, t.trace = s.trace ++ withSleeps pins := by
  by_cases noReset : s.NoReset
  · obtain ⟨pins, trace, -⟩ := step_padsFollow noReset ht
    exact ⟨pins, trace⟩
  · obtain ⟨rest, hh⟩ : ∃ rest, s.host = .reset :: rest := by simpa [State.NoReset] using noReset
    cases (step_reset hh).symm.trans ht
    exact ⟨[], (List.append_nil _).symm⟩

/-- The μops whose pin event stands between two sleeps: all but `REL` (R90, R95, R204). -/
def Uop.isDelayed : Uop → Bool
  | .out _ => true
  | .inp _ => true
  | .wr _ _ => true
  | .rd _ _ => true
  | .rel _ => false

/-- The table of R204 counts the delayed μops of the model's sequences. -/
theorem countP_isDelayed (i : Instr) : (commandOf i).uops.countP Uop.isDelayed = delayedUops i := by cases i <;> rfl

theorem sleepCalls_append (a b : List Event) : sleepCalls (a ++ b) = sleepCalls a + sleepCalls b := List.count_append

/-- A performed μop sleeps twice, a release not at all (R90, R95). -/
theorem sleepCalls_uop (u : Uop) (s : State) (v : Level) :
    sleepCalls (if u.isVoid s then [] else Event.bracketed (u.pinEvent v)) = if u.isDelayed then 2 else 0 := by
  cases u with
  | out l | inp l | wr l x | rd l k => rfl
  | rel l => cases hv : (Uop.rel l).isVoid s <;> rfl

/-- A run that meets no violation sleeps twice for each delayed μop (R203). -/
theorem runUops_sleepCalls {us : List Uop} (busy : s.seq = .busy p) (run : runUops us s = .done t) :
    sleepCalls t.trace = sleepCalls s.trace + 2 * us.countP Uop.isDelayed := by
  induction us generalizing s p with
  | nil => cases run; rfl
  | cons u us ih =>
    cases hu : s.performUop u with
    | error c => simp [runUops, hu] at run
    | ok s' =>
      obtain ⟨v, q, busy', trace⟩ := performUop_trace busy hu
      have rest := ih busy' (by simpa [runUops, hu] using run)
      rw [rest, trace, sleepCalls_append, sleepCalls_uop, List.countP_cons]
      split <;> omega

/-! ### Re-acquires -/

/-- Wherever the events `es` clock no stale level, the events `fs` clock none (R202). -/
def NoLessSafe (es fs : List Event) : Prop :=
  ∀ stale clock, ReacquireSafe stale clock es → ReacquireSafe stale clock fs

/-- The sleeps around a pin event, the level it reads and whether a release is void do not matter (R202). -/
theorem NoLessSafe.uop {es fs : List Event} (tail : NoLessSafe es fs) (u : Uop) (s : State) (v : Level) :
    NoLessSafe (u.pinEvent false :: es) ((if u.isVoid s then [] else Event.bracketed (u.pinEvent v)) ++ fs) := by
  intro stale clock safe
  cases u with
  | out l =>
    cases l with
    | scl => exact tail _ _ safe
    | sda => exact safe.imp_right (tail _ _)
  | inp l => cases l <;> exact tail _ _ safe
  | wr l x =>
    cases l with
    | scl => exact safe.imp_right (tail _ _)
    | sda => exact tail _ _ safe
  | rd l k => exact tail _ _ safe
  | rel l => cases hv : (Uop.rel l).isVoid s <;> exact tail _ _ safe

/-- What a run adds to the trace, whether it ends or meets a violation, is no less safe than its μops' pin events. -/
theorem runUops_noLessSafe (us : List Uop) (busy : s.seq = .busy p) :
    ∃ es, (runUops us s).state.trace = s.trace ++ es ∧ NoLessSafe (us.map (Uop.pinEvent · false)) es := by
  induction us generalizing s p with
  | nil => exact ⟨[], (List.append_nil _).symm, fun _ _ safe => safe⟩
  | cons u us ih =>
    cases hu : s.performUop u with
    | error c => exact ⟨[], by simp [runUops, hu, Run.state], fun _ _ _ => trivial⟩
    | ok t =>
      obtain ⟨v, q, busy', trace⟩ := performUop_trace busy hu
      obtain ⟨es, traceRest, safe⟩ := ih busy'
      refine ⟨_, ?_, safe.uop u s v⟩
      rw [runUops, hu, ← List.append_assoc, ← trace]
      exact traceRest

/-! The steps of the bus commands: whatever level is driven before, and wherever the clock stands, each writes the data line
or makes it an input before it raises the clock, and ends with the clock low. -/

section
variable {stale clock : Bool} {es : List Event}

theorem reacquireSafe_start : ReacquireSafe stale clock (startPins ++ es) ↔ ReacquireSafe false false es := by
  simp [startPins, ReacquireSafe]

theorem reacquireSafe_stop : ReacquireSafe stale clock (stopPins ++ es) ↔ ReacquireSafe false false es := by
  simp [stopPins, ReacquireSafe]

theorem reacquireSafe_bitSent (v : Level) :
    ReacquireSafe stale clock (bitSent v ++ es) ↔ ReacquireSafe false false es := by
  simp [bitSent, ReacquireSafe]

theorem reacquireSafe_bitHeard (v : Level) :
    ReacquireSafe stale clock (bitHeard v ++ es) ↔ ReacquireSafe false false es := by
  simp [bitHeard, ReacquireSafe]

/-- After its acknowledge slot a SENDB takes the data line back at the level of its last bit (R121): a stale level. -/
theorem reacquireSafe_sendb (b : Byte) (a : Level) :
    ReacquireSafe stale clock (sendbPins b a ++ es) ↔ ReacquireSafe true false es := by
  simp [sendbPins, msbFirst, reacquireSafe_bitSent, reacquireSafe_bitHeard, ReacquireSafe]

/-- A RECVB writes its acknowledge over the level at which it takes the data line back (R122). -/
theorem reacquireSafe_recvb (b : Byte) :
    ReacquireSafe stale clock (recvbPins b ++ es) ↔ ReacquireSafe false false es := by
  simp [recvbPins, msbFirst, reacquireSafe_bitHeard, ReacquireSafe]

theorem reacquireSafe_rdreg (dev reg : Byte) (a1 a2 a3 : Level) (b : Byte) :
    ReacquireSafe stale clock (rdregPins dev reg a1 a2 a3 b ++ es) ↔ ReacquireSafe false false es := by
  simp only [rdregPins, List.append_assoc, reacquireSafe_stop, reacquireSafe_start, reacquireSafe_sendb,
    reacquireSafe_recvb]

end

/-- The pin events of every bus command performed to its end, each read at 0, are safe. -/
theorem bus_command_reacquireSafe {i : Instr} (bus : isBusCommand i = true) (clock : Level) :
    ReacquireSafe true clock ((commandOf i).uops.map (Uop.pinEvent · false)) := by
  cases i with
  | start => exact (reacquireSafe_start (es := [])).2 trivial
  | stop => exact (reacquireSafe_stop (es := [])).2 trivial
  | wbit b => exact (reacquireSafe_bitSent (es := []) b).2 trivial
  | rbit | cack => exact (reacquireSafe_bitHeard (es := []) false).2 trivial
  | sack => exact (reacquireSafe_bitSent (es := [.wr .sda true]) false).2 trivial
  | sendb b => exact (reacquireSafe_sendb (es := []) b false).2 trivial
  | recvb => exact (reacquireSafe_recvb (es := []) 0).2 trivial
  | rdreg dev reg => exact (reacquireSafe_rdreg (es := []) dev reg false false false 0).2 trivial
  | lnout _ | lnin _ | lnwr _ _ | lnrd _ | lnrel _ | dec16 _ _ | cleanup => cases bus

end

/-- Settles O43: the events of a step, a reset's none. -/
theorem sleepsBracketEveryPinEvent : Obligations.SleepsBracketEveryPinEvent := fun _ _ => step_trace

/-- Settles O44: a command that does not fault is a run of all its μops, and the table counts the delayed ones. -/
theorem sleepCallsPerCommand : Obligations.SleepCallsPerCommand := by
  intro i s t ready ht noFault
  have ⟨idle, entryNoFault⟩ := ready
  cases (exec_performed idle (.inl entryNoFault)).symm.trans ht
  cases run : runUops (commandOf i).uops (s.begin (commandOf i).word) with
  | violated c l u => rw [run] at noFault; cases noFault
  | done u =>
    rw [conclude_trace, ← countP_isDelayed]
    exact runUops_sleepCalls (s := s.begin (commandOf i).word) rfl run

/-- Settles O48: the events of the command's run, to its end or to a fault, are no less safe than its μops' pin events. -/
theorem reacquiredLevelIsNeverClocked : Obligations.ReacquiredLevelIsNeverClocked := by
  intro i s t es bus ready ht added
  have ⟨idle, noFault⟩ := ready
  obtain ⟨fs, trace, safe⟩ := runUops_noLessSafe (commandOf i).uops (s := s.begin (commandOf i).word) rfl
  cases (exec_performed idle (.inl noFault)).symm.trans ht
  rw [conclude_trace, trace] at added
  obtain rfl : fs = es := List.append_cancel_left added
  exact safe _ _ (bus_command_reacquireSafe bus _)

end Sys2Proof.Machine
end

section
/-! LAWS and PROOF. The direction the data line must have for a command, and what the command leaves (R109, R196). -/

namespace Sys2Proof.Machine

section
variable {s : State} {i : Instr}

/-- Of the line commands the table of R196 has those of the data line. -/
theorem line_eq_sda_of_ne_scl {l : Line} (notClock : (l == .scl) = false) : l = .sda := by
  cases l with
  | scl => cases notClock
  | sda => rfl

/-- `WR(L, v)` is performed on an output alone (R93, R164). -/
theorem wr_violation_of_not_out {l : Line} (v : Level) (notOut : s.dir l ≠ .out) :
    ∃ c, (Uop.wr l v).violation s = some c := by
  cases hd : s.dir l with
  | out => exact absurd hd notOut
  | inp => exact ⟨_, wr_violation_of_inp v hd⟩
  | released => exact ⟨_, violation_of_released (by simp) hd⟩

/-- `RD(L)` is performed on an input alone (R94, R164). -/
theorem rd_violation_of_not_inp {l : Line} (k : Sink) (notInp : s.dir l ≠ .inp) :
    ∃ c, (Uop.rd l k).violation s = some c := by
  cases hd : s.dir l with
  | out => exact ⟨_, rd_violation_of_out k hd⟩
  | inp => exact absurd hd notInp
  | released => exact ⟨_, violation_of_released (by simp) hd⟩

/-- Where the data line has not the direction the table asks for, the command's first μop finds it so. -/
theorem first_uop_violates (dataLine : addressesClockOnly i = false) (wrong : needsSdaDir i s.sda.dir = false) :
    ∃ u us c, (commandOf i).uops = u :: us ∧ u.violation s = some c := by
  cases i with
  | lnout l | lnin l =>
    obtain rfl := line_eq_sda_of_ne_scl dataLine
    exact ⟨_, _, _, rfl, violation_of_released (by simp) (bne_eq_false_iff_eq.1 wrong)⟩
  | lnwr l v =>
    obtain rfl := line_eq_sda_of_ne_scl dataLine
    obtain ⟨c, hc⟩ := wr_violation_of_not_out (s := s) (l := .sda) v (beq_eq_false_iff_ne.1 wrong)
    exact ⟨_, _, c, rfl, hc⟩
  | lnrd l =>
    obtain rfl := line_eq_sda_of_ne_scl dataLine
    obtain ⟨c, hc⟩ := rd_violation_of_not_inp (s := s) (l := .sda) .ret (beq_eq_false_iff_ne.1 wrong)
    exact ⟨_, _, c, rfl, hc⟩
  | start | stop | wbit _ | sack | sendb _ | rdreg _ _ =>
    obtain ⟨c, hc⟩ := wr_violation_of_not_out (l := .sda) _ (beq_eq_false_iff_ne.1 wrong)
    exact ⟨_, _, c, rfl, hc⟩
  | rbit | cack | recvb => exact ⟨_, _, _, rfl, violation_of_released (by simp) (bne_eq_false_iff_eq.1 wrong)⟩
  | lnrel _ | dec16 _ _ | cleanup => cases wrong

/-- The command `i` leaves no fault, and both lines as the table of R196 says. -/
structure EndsAsTabled (i : Instr) (s t : State) : Prop where
  noFault : t.fsr.fault = false
  sda : t.sda = ⟨leavesSdaDir i s.sda.dir, leavesSdaLatch i s.sda.latch⟩
  sclLatch : t.scl.latch = leavesSclLatch i s.scl.latch
  sclDir : t.scl.dir = .out ∨ (i = .cleanup ∧ t.scl.dir = .released)

/-- Where the data line has the direction the table asks for, the command runs to its end. -/
theorem exec_ends_as_tabled (ready : s.Ready) (sclOut : s.scl.dir = .out) (dataLine : addressesClockOnly i = false)
    (needs : needsSdaDir i s.sda.dir = true) : ∃ t, exec i s = .next t ∧ EndsAsTabled i s t := by
  have ⟨idle, noFault⟩ := ready
  cases i with
  | lnout l =>
    obtain rfl := line_eq_sda_of_ne_scl dataLine
    exact ⟨_, (lnoutConfiguresOutput .sda s ready).1 (bne_iff_ne.1 needs), noFault, rfl, rfl, .inl sclOut⟩
  | lnin l =>
    obtain rfl := line_eq_sda_of_ne_scl dataLine
    exact ⟨_, (lninConfiguresInput .sda s ready).1 (bne_iff_ne.1 needs), noFault, rfl, rfl, .inl sclOut⟩
  | lnwr l v =>
    obtain rfl := line_eq_sda_of_ne_scl dataLine
    exact ⟨_, (lnwrWritesAnOutput .sda v s ready).1 (eq_of_beq needs), noFault, rfl, rfl, .inl sclOut⟩
  | lnrd l =>
    obtain rfl := line_eq_sda_of_ne_scl dataLine
    have inp : s.sda.dir = .inp := eq_of_beq needs
    exact ⟨_, exec_lnrd_of_inp ready inp, noFault, by rw [leavesSdaDir, ← inp]; rfl, rfl, .inl sclOut⟩
  | lnrel l =>
    obtain rfl := line_eq_sda_of_ne_scl dataLine
    exact ⟨_, exec_lnrel idle .sda, noFault, rfl, rfl, .inl sclOut⟩
  | start => exact ⟨_, exec_start ready ⟨sclOut, eq_of_beq needs⟩, noFault, rfl, rfl, .inl rfl⟩
  | stop => exact ⟨_, exec_stop ready ⟨sclOut, eq_of_beq needs⟩, noFault, rfl, rfl, .inl rfl⟩
  | wbit b => exact ⟨_, exec_wbit ready ⟨sclOut, eq_of_beq needs⟩ b, noFault, rfl, rfl, .inl rfl⟩
  | rbit => exact ⟨_, exec_of_heard_bit (.inl rfl) ready sclOut (bne_iff_ne.1 needs), noFault, rfl, rfl, .inl rfl⟩
  | sack => exact ⟨_, exec_sack ready ⟨sclOut, eq_of_beq needs⟩, noFault, rfl, rfl, .inl rfl⟩
  | cack => exact ⟨_, exec_of_heard_bit (.inr rfl) ready sclOut (bne_iff_ne.1 needs), noFault, rfl, rfl, .inl rfl⟩
  | sendb b => exact ⟨_, exec_sendb ready ⟨sclOut, eq_of_beq needs⟩ b, noFault, rfl, rfl, .inl rfl⟩
  | recvb => exact ⟨_, exec_recvb ready sclOut (bne_iff_ne.1 needs), noFault, rfl, rfl, .inl rfl⟩
  | rdreg dev reg =>
    obtain ⟨a1, a2, a3, b, -, performed⟩ := exec_rdreg ready ⟨sclOut, eq_of_beq needs⟩ dev reg
    exact ⟨_, performed, noFault, rfl, rfl, .inl rfl⟩
  | dec16 low high => exact ⟨_, (dec16AnswersTheWord low high s idle).1, noFault, rfl, rfl, .inl sclOut⟩
  | cleanup => exact ⟨_, cleanupReleasesBothPins s idle, noFault, rfl, rfl, .inr ⟨rfl, rfl⟩⟩

end

/-- Settles O33: with the direction the table asks for the command ends as tabled; else its first μop faults. -/
theorem directionDiscipline : Obligations.DirectionDiscipline := by
  intro i s ready sclOut dataLine
  cases needs : needsSdaDir i s.sda.dir with
  | true =>
    obtain ⟨t, ht, noFault, sda, sclLatch, sclDir⟩ := exec_ends_as_tabled ready sclOut dataLine needs
    exact ⟨t, ht, iff_of_true noFault rfl, fun _ => ⟨sda, sclLatch, sclDir⟩⟩
  | false =>
    obtain ⟨u, us, c, hu, violates⟩ := first_uop_violates dataLine needs
    exact ⟨_, exec_of_violation ready hu violates, by simp [State.faulted], by simp⟩

end Sys2Proof.Machine
end
